-- ==== Sys2Proof/Word.lean ====
section
/-! DEFINITION. The one word type of the machine: the unsigned byte (spec/00_scope.md R6, R5 DATA_WIDTH). -/

namespace Sys2Proof

/-- R6: "Byte: an unsigned integer from 0 to 255." Registers, memory cells, operands, opcodes, the
program counter and the flags register are all bytes; bit 0 is the least significant bit. -/
abbrev Byte := BitVec 8

end Sys2Proof
end

