-- ==== Sys2Proof/Config.lean ====
section
/-! DEFINITION. The fixed parameters of the machine (spec/00_scope.md R5), the names of its eleven
instructions, the type of an opcode assignment, and the free values the spec leaves outside the core.
The adopted opcode values themselves (R56) stand in `Sys2Proof/Decode.lean`. -/

namespace Sys2Proof

/-- R1, R56: the eleven mnemonics, the closed enumeration of operations. -/
inductive Mnemonic where
  | hlt | push | pop | prn | jmp | jeq | jne | ldi | add | mul | cmp
  deriving DecidableEq, Repr

/-- An assignment of opcode bytes to mnemonics: the parameters OPC_HLT to OPC_CMP of R5, which the spec
keeps open (decision D1). Log entry 1. -/
abbrev OpcodeMap := Mnemonic → Byte

namespace Config

/-- R5 MEM_SIZE, R20, R30: 256 cells, addresses 0 to 255. -/
def memSize : Nat := 256

/-- R5 EXIT_STATUS_BOUNDS (decision D15) is open but for being non-zero; this is the free value one
below it. FREE VALUE, log entry 6. -/
opaque exitStatusBoundsPred : Nat

/-- R5 EXIT_STATUS_BOUNDS: "non-zero, otherwise free". -/
def exitStatusBounds : Nat := exitStatusBoundsPred + 1

/-- R111: the exit status of `UnsupportedALUOperation` is "not stated". FREE VALUE, log entry 6. -/
opaque exitStatusUnsupportedAlu : Nat

end Config

end Sys2Proof
end

