-- ==== Sys2Proof/Syntax.lean ====
section
/-! DEFINITION. The abstract syntax: one constructor per row of spec/opcode_table.json. -/

namespace Sys2Proof

/-- The instructions with their operand bytes (spec/30_encoding.md R52, R56). A register operand is the
whole operand byte, 0 to 255, unmasked (R53): an index above 7 is a legal encoding whose execution
aborts, so the byte is kept as it was fetched. -/
inductive Instr where
  /-- R100, format Z. -/
  | hlt
  /-- R93, format R. -/
  | push (reg : Byte)
  /-- R94, format R. -/
  | pop (reg : Byte)
  /-- R91, format R. -/
  | prn (reg : Byte)
  /-- R97, format R. -/
  | jmp (reg : Byte)
  /-- R98, format R. -/
  | jeq (reg : Byte)
  /-- R99, format R. -/
  | jne (reg : Byte)
  /-- R90, format RI. -/
  | ldi (reg imm : Byte)
  /-- R85, format RR. -/
  | add (a b : Byte)
  /-- R86, format RR. -/
  | mul (a b : Byte)
  /-- R87, format RR. -/
  | cmp (a b : Byte)
  deriving DecidableEq, Repr

end Sys2Proof
end

