-- ==== Sys2Proof/WellFormed.lean ====
section
/-! DEFINITION. Well-formed instructions: every register-index operand is in the range 0 to 7
(spec/10_state.md R13, spec/30_encoding.md R53). An instruction that is not well formed still decodes
and runs: it aborts with `RegisterOutOfRange` (R113). -/

namespace Sys2Proof

/-- R52: the register-index operands of an instruction, in operand order. The immediate of LDI is none
(R113: "The immediate of LDI is not a register index and is not checked"). -/
def Instr.regOperands : Instr → List Byte
  | .hlt => []
  | .push reg => [reg]
  | .pop reg => [reg]
  | .prn reg => [reg]
  | .jmp reg => [reg]
  | .jeq reg => [reg]
  | .jne reg => [reg]
  | .ldi reg _ => [reg]
  | .add a b => [a, b]
  | .mul a b => [a, b]
  | .cmp a b => [a, b]

/-- R13: "A register index is valid only in the range 0 to 7." -/
abbrev Instr.WellFormed (i : Instr) : Prop := ∀ r ∈ i.regOperands, r.toNat < 8

end Sys2Proof
end

