-- ==== Sys2Proof/Decode.lean ====
section
/-! DEFINITION. Decoding and encoding (spec/30_encoding.md), for any opcode assignment, and the adopted
assignment of R56. -/

namespace Sys2Proof

/-- R56, R57: the operand count of each operation. -/
def Mnemonic.arity : Mnemonic → Nat
  | .hlt => 0
  | .push | .pop | .prn | .jmp | .jeq | .jne => 1
  | .ldi | .add | .mul | .cmp => 2

/-- The mnemonics in the order in which R57 tests them. -/
def Mnemonic.all : List Mnemonic :=
  [.hlt, .push, .pop, .prn, .jmp, .jeq, .jne, .ldi, .add, .mul, .cmp]

/-- R51: bits 7:6 of an opcode byte, the operand count N. -/
def operandCount (op : Byte) : Nat := op.toNat / 64

/-- R55: what the source fixes about the opcode values: (a) pairwise distinct, (b) bits 7:6 are the
operand count, (c) `0b11111111` is not among them. -/
def OpcodeMap.Valid (om : OpcodeMap) : Prop :=
  (∀ m n, om m = om n → m = n) ∧ (∀ m, operandCount (om m) = m.arity) ∧ ∀ m, om m ≠ 0b11111111#8

/-- R56: the adopted opcode values. The spec takes them from general knowledge of the LS-8 instruction
set (decision D1). PRESUMED, unsafe, log entry 1. -/
def opcodeOf : OpcodeMap
  | .hlt => 0b00000001
  | .push => 0b01000101
  | .pop => 0b01000110
  | .prn => 0b01000111
  | .jmp => 0b01010100
  | .jeq => 0b01010101
  | .jne => 0b01010110
  | .ldi => 0b10000010
  | .add => 0b10100000
  | .mul => 0b10100010
  | .cmp => 0b10100111

/-- R57: the decode function on an opcode byte; `none` is `Unknown(op)` (R58). The whole byte is matched
against the closed table (R51). -/
def decodeOpcode (om : OpcodeMap) (op : Byte) : Option Mnemonic :=
  Mnemonic.all.find? fun m => om m == op

/-- R75: "a one-operand instruction receives `a` and never sees `b`; a two-operand instruction receives
`a` and `b`" (R52 for the roles, `a` the byte at pc + 1 and `b` the byte at pc + 2). -/
def assemble (m : Mnemonic) (a b : Byte) : Instr :=
  match m with
  | .hlt => .hlt
  | .push => .push a
  | .pop => .pop a
  | .prn => .prn a
  | .jmp => .jmp a
  | .jeq => .jeq a
  | .jne => .jne a
  | .ldi => .ldi a b
  | .add => .add a b
  | .mul => .mul a b
  | .cmp => .cmp a b

/-- Why a list of bytes decodes to no instruction. -/
inductive DecodeError where
  /-- R58: the first byte is none of the known opcodes. -/
  | unknownOpcode (op : Byte)
  /-- The list ends before the opcode byte or before the last operand byte. The machine itself never meets this: its
  fetch reads memory, and an address past 255 aborts (R74). -/
  | truncated
  deriving DecidableEq, Repr

/-- R50, R52, R57: one instruction read from the front of a list of bytes in ascending address order
(R35), with the bytes that follow it. -/
def decode (om : OpcodeMap) : List Byte → Except DecodeError (Instr × List Byte)
  | [] => .error .truncated
  | op :: rest =>
    match decodeOpcode om op with
    | none => .error (.unknownOpcode op)
    | some m =>
      if rest.length < m.arity then .error .truncated
      else .ok (assemble m (rest.getD 0 0) (rest.getD 1 0), rest.drop m.arity)

/-- The operation of an instruction. -/
def Instr.mnemonic : Instr → Mnemonic
  | .hlt => .hlt
  | .push _ => .push
  | .pop _ => .pop
  | .prn _ => .prn
  | .jmp _ => .jmp
  | .jeq _ => .jeq
  | .jne _ => .jne
  | .ldi _ _ => .ldi
  | .add _ _ => .add
  | .mul _ _ => .mul
  | .cmp _ _ => .cmp

/-- R52: the operand bytes of an instruction, at pc + 1 and pc + 2. -/
def Instr.operands : Instr → List Byte
  | .hlt => []
  | .push reg => [reg]
  | .pop reg => [reg]
  | .prn reg => [reg]
  | .jmp reg => [reg]
  | .jeq reg => [reg]
  | .jne reg => [reg]
  | .ldi reg imm => [reg, imm]
  | .add a b => [a, b]
  | .mul a b => [a, b]
  | .cmp a b => [a, b]

/-- R50, R52: the bytes of an instruction, the opcode byte first. -/
def encode (om : OpcodeMap) (i : Instr) : List Byte := om i.mnemonic :: i.operands

/-- The bytes of a number of the opcode table, the first byte in bits 7:0, up to the longest instruction
(three bytes); the bits from `nbits` up are taken as zero. -/
def tableBytes (nbits w : Nat) : List Byte :=
  let v := w % 2 ^ nbits
  [BitVec.ofNat 8 v, BitVec.ofNat 8 (v / 256), BitVec.ofNat 8 (v / 65536)]

/-- The instruction the decoder reads from an instruction whose bits are `w`, numbered as
spec/opcode_table.json numbers them. -/
def decodeTableWord (nbits w : Nat) : Option Instr :=
  match decode opcodeOf (tableBytes nbits w) with
  | .ok (i, _) => some i
  | .error _ => none

end Sys2Proof
end

