-- ==== Sys2Proof/Machine/State.lean ====
section
/-! DEFINITION. The whole architectural state (spec/10_state.md: "Nothing else is state", R23), the
reasons a step can stop, and the state right after reset (R25). -/

namespace Sys2Proof.Machine

/-- R10: the register file, "ordered sequence of 8 byte-wide slots, indices 0–7". None is hard-wired and
none is banked; `r7` is the stack pointer by convention of PUSH and POP (R11). -/
structure Regs where
  r0 : Byte
  r1 : Byte
  r2 : Byte
  r3 : Byte
  r4 : Byte
  r5 : Byte
  r6 : Byte
  r7 : Byte
  deriving DecidableEq, Repr

/-- R111: the closed list of abort reasons, each with its payload. -/
inductive AbortReason where
  /-- R112: the byte at `pc` is no known opcode; the payload is that byte. -/
  | unknownInstruction (op : Byte)
  /-- R115: an address of 256 or more at operand fetch or at the sequential advance. -/
  | memoryOutOfRange (addr : Nat)
  /-- R113: a register-index operand above 7; the payload is the operand byte. -/
  | registerOutOfRange (i : Byte)
  /-- R114: an opcode the ALU does not know was routed to it. No step produces it. -/
  | unsupportedALUOperation (op : Byte)
  deriving DecidableEq, Repr

/-- R21: "States: Running, Halted, Aborted(reason)." -/
inductive RunState where
  | running
  | halted
  | aborted (reason : AbortReason)
  deriving DecidableEq, Repr

/-- R60: the ALU operation select, "one of three values, ADD, MUL, CMP". -/
inductive AluSelect where
  | add
  | mul
  | cmp
  deriving DecidableEq, Repr

/-- The 256-byte memory as a canonical list of cells: addresses strictly rising, no listed byte equal to what
an unlisted address reads as (`Memory.unlisted`). The form is `Memory.wf`. -/
abbrev Memory := List Host.Cell

/-- The architectural state of the core. The ports MEM, OUT and STATUS of R24 are read off it: memory is
`mem`, what OUT has carried is `out`, STATUS is `run`. -/
structure State where
  /-- R10: x[0] to x[7]. -/
  regs : Regs
  /-- R15: the program counter, 8 bits. -/
  pc : Byte
  /-- R18: the flags register: bit 0 Equal, bit 1 Less-than, bit 2 Greater-than, bits 7:3 zero. -/
  fl : Byte
  /-- R20: the one memory, program, data and stack alike. -/
  mem : Memory
  /-- R21: the run state. -/
  run : RunState
  /-- R22: every byte PRN has emitted, oldest first. -/
  out : List Byte
  deriving DecidableEq, Repr

/-- Why no step is taken. -/
inductive Fault where
  /-- Raised by `step` alone, when `run` is `halted` or `aborted`. R70: "A step is enabled if and only if
  `run = Running`." Safe: the hardware takes no step there either. Log entry 2. -/
  | notRunning
  deriving DecidableEq, Repr

/-- What the model declines. -/
inductive Refusal where
  /-- An instruction without a meaning; no arm of `exec` raises it any more. Safe. -/
  | notModelled (mnemonic : String)
  /-- Raised by `boot` alone, for an image of more than 256 bytes. R131: "An image of more than 256 bytes has no
  defined meaning ... and the model refuses it." Safe. Log entry 4. -/
  | imageTooLong (length : Nat)
  deriving DecidableEq, Repr

/-- R25, R130: the state immediately after reset and before the loader writes the image. Every value is the
spec's; the one of `fl` is the spec's own decision D4 (log entry 3). -/
def State.reset : State where
  regs := { r0 := 0, r1 := 0, r2 := 0, r3 := 0, r4 := 0, r5 := 0, r6 := 0, r7 := 0 }
  pc := 0
  fl := 0
  mem := []
  run := .running
  out := []

end Sys2Proof.Machine
end

