-- ==== Sys2Proof/Machine/Ops.lean ====
section
/-! DEFINITION. The shared operations on registers, memory, output and run state: `x[i]`, `MemRead`,
`MemWrite`, `Emit`, `raise Abort`, `AdvancePc` (spec/00_scope.md R7). -/

namespace Sys2Proof.Machine

/-! ### Registers -/

/-- R5 SP_INDEX, R11: register 7 is the stack pointer of PUSH and POP. -/
def sp : Fin 8 := 7

/-- R7: `x[i]`. -/
def Regs.get (g : Regs) (i : Fin 8) : Byte :=
  match i with
  | 0 => g.r0
  | 1 => g.r1
  | 2 => g.r2
  | 3 => g.r3
  | 4 => g.r4
  | 5 => g.r5
  | 6 => g.r6
  | 7 => g.r7

/-- R7: `x[i] <- v`. -/
def Regs.set (g : Regs) (i : Fin 8) (v : Byte) : Regs :=
  match i with
  | 0 => { g with r0 := v }
  | 1 => { g with r1 := v }
  | 2 => { g with r2 := v }
  | 3 => { g with r3 := v }
  | 4 => { g with r4 := v }
  | 5 => { g with r5 := v }
  | 6 => { g with r6 := v }
  | 7 => { g with r7 := v }

/-- The register `x[i]` of a state. -/
def State.reg (s : State) (i : Fin 8) : Byte := s.regs.get i

/-- `x[i] <- v`. -/
def State.setReg (s : State) (i : Fin 8) (v : Byte) : State := { s with regs := s.regs.set i v }

/-- `pc <- target`. -/
def State.setPc (s : State) (target : Byte) : State := { s with pc := target }

/-- `FL <- v`, the whole register. -/
def State.setFl (s : State) (v : Byte) : State := { s with fl := v }

/-- A new memory. -/
def State.setMem (s : State) (m : Memory) : State := { s with mem := m }

/-- `run <- r`. -/
def State.setRun (s : State) (r : RunState) : State := { s with run := r }

/-- R22: `Emit(v)` is `out <- out ++ [v]`; it always succeeds. -/
def State.emit (s : State) (v : Byte) : State := { s with out := s.out ++ [v] }

/-! ### Arithmetic modulo 256 (R12: "values wrap modulo 256 (byte arithmetic)") -/

/-- R85: `(x + y) mod 256`. -/
def wrapAdd (x y : Byte) : Byte := BitVec.ofNat 8 (x.toNat + y.toNat)

/-- R86: `(x * y) mod 256`. -/
def wrapMul (x y : Byte) : Byte := BitVec.ofNat 8 (x.toNat * y.toNat)

/-- R93, R96: `(x - 1) mod 256`, so that decrementing 0 gives 255. -/
def wrapDec (x : Byte) : Byte := BitVec.ofInt 8 (Int.ofNat x.toNat - 1)

/-- R94, R96: `(x + 1) mod 256`, so that incrementing 255 gives 0. -/
def wrapInc (x : Byte) : Byte := BitVec.ofNat 8 (x.toNat + 1)

/-! ### Memory -/

/-- R25, R130: what a cell holds that nothing has written: memory is zero-initialized. -/
def Memory.unlisted : Byte := 0

/-- The byte in the cell at an address. -/
def Memory.read : Memory → Nat → Byte
  | [], _ => Memory.unlisted
  | c :: rest, addr => if c.1 = addr then c.2 else Memory.read rest addr

/-- The cells other than the one at `addr`. -/
def Memory.erase (m : Memory) (addr : Nat) : Memory := m.filter fun c => c.1 != addr

/-- A cell put in its place by address. -/
def Memory.insert (addr : Nat) (v : Byte) : Memory → Memory
  | [] => [(addr, v)]
  | c :: rest => if addr < c.1 then (addr, v) :: c :: rest else c :: Memory.insert addr v rest

/-- R32: `mem[addr] <- v`. Writing the byte an unlisted address reads as removes the entry. -/
def Memory.write (m : Memory) (addr : Nat) (v : Byte) : Memory :=
  if v = Memory.unlisted then m.erase addr else Memory.insert addr v (m.erase addr)

/-- Bytes written at successive addresses from `addr` up. -/
def Memory.writeBytes (m : Memory) (addr : Nat) : List Byte → Memory
  | [] => m
  | v :: vs => Memory.writeBytes (m.write addr v) (addr + 1) vs

/-- The canonical form: addresses strictly rising and in the address space, no listed byte equal to the unlisted one. -/
abbrev Memory.wf (m : Memory) : Prop :=
  m.Pairwise (fun c d => c.1 < d.1) ∧ ∀ c ∈ m, c.1 < Config.memSize ∧ c.2 ≠ Memory.unlisted

/-- `mem[addr]` of a state, for an address in range. -/
def State.byteAt (s : State) (addr : Nat) : Byte := s.mem.read addr

/-- R31: `MemRead(addr, 1)`. The address is a natural number; 256 or more aborts, without wrap-around. -/
def memRead (s : State) (addr : Nat) : Except AbortReason Byte :=
  if Config.memSize ≤ addr then .error (.memoryOutOfRange addr) else .ok (s.byteAt addr)

/-- R32: `MemWrite(addr, 1, v)`, with the same range check. -/
def memWrite (s : State) (addr : Nat) (v : Byte) : Except AbortReason State :=
  if Config.memSize ≤ addr then .error (.memoryOutOfRange addr)
  else .ok (s.setMem (s.mem.write addr v))

/-! ### Aborts and the sequential advance -/

/-- R110: `raise Abort(reason)`. `s` is the state at the start of the step: every change made since is
discarded, `run <- Aborted(reason)`, and `pc` keeps the address of the instruction. This machine has no other way
to take an exception and none to return from one (R117). -/
def raiseAbort (r : AbortReason) (s : State) : Host.Outcome State Fault Refusal :=
  .next (s.setRun (.aborted r))

/-- R76: `AdvancePc(w)`. The sum is a natural number. Past 255 the core aborts with `pc` left unchanged and
the effects already in `s` kept (the one exception of R110; log entry 5). -/
def advancePc (w : Nat) (s : State) : Host.Outcome State Fault Refusal :=
  if s.pc.toNat + w ≤ 255 then .next (s.setPc (BitVec.ofNat 8 (s.pc.toNat + w)))
  else raiseAbort (.memoryOutOfRange (s.pc.toNat + w)) s

end Sys2Proof.Machine
end

