-- ==== Sys2Proof/Machine/Flags.lean ====
section
/-! DEFINITION. The flags register (spec/10_state.md R18, R19): its masks, the computation of CMP (spec/41_alu.md R87)
and the test of JEQ and JNE. -/

namespace Sys2Proof.Machine

/-- R18: Equal. -/
def flagE : Byte := 0b001
/-- R18: Less-than (bit 1, unlike the LS-8 convention; spec/90_conflicts.md C8). -/
def flagL : Byte := 0b010
/-- R18: Greater-than (bit 2). -/
def flagG : Byte := 0b100

/-- R87: the whole flags register after comparing `x` with `y` as unsigned bytes. -/
def cmpFlags (x y : Byte) : Byte :=
  if x = y then flagE else if x.toNat < y.toNat then flagL else flagG

/-- R98, R99: `FL[0]`, the one bit the conditional jumps read. -/
def equalSet (fl : Byte) : Bool := fl.getLsbD 0

end Sys2Proof.Machine
end

