-- ==== Sys2Proof/Machine/Operands.lean ====
section
/-! DEFINITION. The operand forms: the register-index byte with its check (spec/60_exceptions.md R113) and the
stack operand of PUSH and POP (spec/43_stack.md R95). The immediate of LDI is its byte itself (R54). -/

namespace Sys2Proof.Machine

/-- The operand byte that names register `x[i]` (R53: "Values 0 to 7 name `x[0]` to `x[7]`"). -/
def regByte (i : Fin 8) : Byte := BitVec.ofNat 8 i.val

/-- R113: `RegCheck(i)`, answering the register the byte names. The byte is not masked (R53). -/
def regCheck (i : Byte) : Except AbortReason (Fin 8) :=
  if h : i.toNat < 8 then .ok ⟨i.toNat, h⟩ else .error (.registerOutOfRange i)

/-- An instruction's use of a register operand: the check first, before any state is read or written (R113), then the
rest of the instruction on the register named. -/
def withReg (i : Byte) (s : State) (k : Fin 8 → Host.Outcome State Fault Refusal) :
    Host.Outcome State Fault Refusal :=
  match regCheck i with
  | .ok r => k r
  | .error e => raiseAbort e s

/-- R95: the address PUSH stores to: SP after the decrement. -/
def pushAddr (s : State) : Nat := (wrapDec (s.reg sp)).toNat

/-- R95: the address POP loads from: SP before the increment. -/
def popAddr (s : State) : Nat := (s.reg sp).toNat

end Sys2Proof.Machine
end

