-- ==== Sys2Proof/Machine/Alu.lean ====
section
/-! DEFINITION. The ALU (spec/41_alu.md R88, spec/30_encoding.md R60) and the meanings of ADD, MUL, CMP. -/

namespace Sys2Proof.Machine

/-- R60, R114: the ALU's own dispatch on the opcode byte routed to it; any other opcode is an
unsupported-operation error. -/
def aluSelect (op : Byte) : Except AbortReason AluSelect :=
  if op = opcodeOf .add then .ok .add
  else if op = opcodeOf .mul then .ok .mul
  else if op = opcodeOf .cmp then .ok .cmp
  else .error (.unsupportedALUOperation op)

/-- R85, R86, R87: the effect of an ALU operation on `x` and `FL`; both inputs are read before any write (R88). -/
def aluEffect (sel : AluSelect) (a b : Fin 8) (s : State) : State :=
  match sel with
  | .add => s.setReg a (wrapAdd (s.reg a) (s.reg b))
  | .mul => s.setReg a (wrapMul (s.reg a) (s.reg b))
  | .cmp => s.setFl (cmpFlags (s.reg a) (s.reg b))

/-- R60: the ALU receives `(opcode, operand_a, operand_b)`: it checks `a` and then `b`, performs the operation and
advances by 3 (R88). An opcode it does not know is reported before the operands are checked (the spec does
not order the two; DESIGN CHOICE, log entry 7). -/
def alu (op a b : Byte) (s : State) : Host.Outcome State Fault Refusal :=
  match aluSelect op with
  | .error e => raiseAbort e s
  | .ok sel => withReg a s fun ra => withReg b s fun rb => advancePc 3 (aluEffect sel ra rb s)

/-- R85. -/
def execAdd (a b : Byte) (s : State) : Host.Outcome State Fault Refusal := alu (opcodeOf .add) a b s

/-- R86. -/
def execMul (a b : Byte) (s : State) : Host.Outcome State Fault Refusal := alu (opcodeOf .mul) a b s

/-- R87. -/
def execCmp (a b : Byte) (s : State) : Host.Outcome State Fault Refusal := alu (opcodeOf .cmp) a b s

end Sys2Proof.Machine
end

