-- ==== Sys2Proof/Machine/Control.lean ====
section
/-! DEFINITION. The meanings of JMP, JEQ, JNE and HLT (spec/44_control.md). -/

namespace Sys2Proof.Machine

/-- R101: the register-indirect absolute transfer, `pc <- x[r]`. -/
def jumpTo (r : Fin 8) (s : State) : Host.Outcome State Fault Refusal := .next (s.setPc (s.reg r))

/-- R97: `RegCheck(reg); pc <- x[reg]`. -/
def execJmp (reg : Byte) (s : State) : Host.Outcome State Fault Refusal :=
  withReg reg s fun r => jumpTo r s

/-- R98: taken when E is set; the register is checked whether or not the jump is taken. -/
def execJeq (reg : Byte) (s : State) : Host.Outcome State Fault Refusal :=
  withReg reg s fun r => if equalSet s.fl then jumpTo r s else advancePc 2 s

/-- R99: taken when E is clear, "tested on bit 0 alone" (spec/90_conflicts.md C1). -/
def execJne (reg : Byte) (s : State) : Host.Outcome State Fault Refusal :=
  withReg reg s fun r => if equalSet s.fl then advancePc 2 s else jumpTo r s

/-- R100: `run <- Halted`, everything else unchanged. -/
def execHlt (s : State) : Host.Outcome State Fault Refusal := .next (s.setRun .halted)

end Sys2Proof.Machine
end

