-- ==== Sys2Proof/Machine/LoadPrint.lean ====
section
/-! DEFINITION. The meanings of LDI and PRN (spec/42_load_print.md). -/

namespace Sys2Proof.Machine

/-- R90: `RegCheck(reg); x[reg] <- imm; AdvancePc(3)`. -/
def execLdi (reg imm : Byte) (s : State) : Host.Outcome State Fault Refusal :=
  withReg reg s fun r => advancePc 3 (s.setReg r imm)

/-- R91: `RegCheck(reg); Emit(x[reg]); AdvancePc(2)`. -/
def execPrn (reg : Byte) (s : State) : Host.Outcome State Fault Refusal :=
  withReg reg s fun r => advancePc 2 (s.emit (s.reg r))

end Sys2Proof.Machine
end

