-- ==== Sys2Proof/Machine/Stack.lean ====
section
/-! DEFINITION. The meanings of PUSH and POP (spec/43_stack.md): a full-descending stack in the one memory. -/

namespace Sys2Proof.Machine

/-- R93, in the order of its pseudocode: SP is decremented, then the source register is read, then the byte is
stored, so `PUSH r7` stores the decremented SP. The store's range check cannot fire (R96). -/
def execPush (reg : Byte) (s : State) : Host.Outcome State Fault Refusal :=
  withReg reg s fun r =>
    let s1 := s.setReg sp (wrapDec (s.reg sp))
    match memWrite s1 (pushAddr s) (s1.reg r) with
    | .ok s2 => advancePc 2 s2
    | .error e => raiseAbort e s

/-- R94, in the order of its pseudocode: the load is written to `x[reg]`, then `x[7]` is read again and
incremented, so `POP r7` leaves the loaded byte plus 1. -/
def execPop (reg : Byte) (s : State) : Host.Outcome State Fault Refusal :=
  withReg reg s fun r =>
    match memRead s (popAddr s) with
    | .ok v =>
      let s1 := s.setReg r v
      advancePc 2 (s1.setReg sp (wrapInc (s1.reg sp)))
    | .error e => raiseAbort e s

end Sys2Proof.Machine
end

