-- ==== Sys2Proof/Machine/Fetch.lean ====
section
/-! DEFINITION. Items 1 to 4 of the step (spec/40_execution_cycle.md R70 to R74): opcode fetch, halt test, decode,
operand fetch. -/

namespace Sys2Proof.Machine

/-- The instruction the step executes, or the reason it aborts before any instruction runs. The halt test comes
first (R72), then the unknown-opcode test (R73), and only then are BOTH operand bytes read, whatever the operand count,
at `pc + 1` and `pc + 2` as natural numbers, the read at `pc + 1` first (R74, spec/90_conflicts.md C4). -/
def fetch (om : OpcodeMap) (s : State) : Except AbortReason Instr :=
  match memRead s s.pc.toNat with
  | .error e => .error e
  | .ok op =>
    if op = om .hlt then .ok .hlt
    else match decodeOpcode om op with
      | none => .error (.unknownInstruction op)
      | some m =>
        match memRead s (s.pc.toNat + 1) with
        | .error e => .error e
        | .ok a =>
          match memRead s (s.pc.toNat + 2) with
          | .error e => .error e
          | .ok b => .ok (assemble m a b)

end Sys2Proof.Machine
end

