-- ==== Sys2Proof/Machine/Step.lean ====
section
/-! DEFINITION. The step (spec/40_execution_cycle.md R70), for any opcode assignment and for the adopted one. -/

namespace Sys2Proof.Machine

/-- R70: a step is enabled if and only if `run = Running`; it fetches (`fetch`, items 1 to 4) and executes (`exec`,
item 5). An abort in items 1 to 4 changes nothing but `run` (R73, R74). -/
def stepWith (om : OpcodeMap) (s : State) : Host.Outcome State Fault Refusal :=
  match s.run with
  | .running =>
    match fetch om s with
    | .ok i => exec i s
    | .error e => raiseAbort e s
  | .halted => .fault .notRunning
  | .aborted _ => .fault .notRunning

/-- The step of the machine, with the opcode values of R56. -/
def step (s : State) : Host.Outcome State Fault Refusal := stepWith opcodeOf s

/-- `s` with the instruction of the table word `w` stored where the next step fetches: its three bytes (the ones above
`nbits` zero) at `pc`, and what that fetch needs: the core running, and `pc` where all three addresses exist
(the present `pc`, or 0 where `pc + 2` is past 255, since no instruction but HLT runs there, R74). Log entry 4. -/
def State.withFetchWord (s : State) (nbits w : Nat) : State :=
  let pc := if s.pc.toNat + 2 ≤ 255 then s.pc else 0
  { s with pc := pc, run := .running, mem := s.mem.writeBytes pc.toNat (tableBytes nbits w) }

end Sys2Proof.Machine
end

