-- ==== Sys2Proof/Machine/Environment.lean ====
section
/-! DEFINITION. What the environment does through the core's ports (spec/10_state.md R24): the RESET port, the image the
loader installs (spec/70_reset_and_hazards.md R130, R131) and the exit status read off STATUS (spec/60_exceptions.md R118). -/

namespace Sys2Proof.Machine

/-- R130: every assertion of RESET is a full reset; nothing of the state before survives. -/
def resetPort (_before : State) : State := State.reset

/-- R131: after reset the loader writes the image at successive addresses from 0 and nothing else; an image of more than
256 bytes is refused. Log entry 4. -/
def boot (image : List Byte) : Host.Outcome State Fault Refusal :=
  if image.length ≤ Config.memSize then
    .next { State.reset with mem := State.reset.mem.writeBytes 0 image }
  else .refused (.imageTooLong image.length)

/-- R118: the exit status of the surrounding process; `none` while the core runs. The status of the bounds aborts
is the spec's open parameter, and that of `UnsupportedALUOperation` is "not stated" (R111). Log entry 6. -/
def RunState.exitStatus : RunState → Option Nat
  | .running => none
  | .halted => some 0
  | .aborted (.unknownInstruction _) => some 1
  | .aborted (.memoryOutOfRange _) => some Config.exitStatusBounds
  | .aborted (.registerOutOfRange _) => some Config.exitStatusBounds
  | .aborted (.unsupportedALUOperation _) => some Config.exitStatusUnsupportedAlu

end Sys2Proof.Machine
end

