-- ==== Sys2Proof/Safety.lean ====
section
/-! DEFINITION. What a good state is: the invariant every step keeps, and the states a run reaches. -/

namespace Sys2Proof.Safety

open Sys2Proof.Machine

/-- R19: the four values FL takes in a reachable state (bits 7:3 zero, at most one of E, L, G). -/
abbrev FlagsLegal (fl : Byte) : Prop := fl = 0 ∨ fl = flagE ∨ fl = flagL ∨ fl = flagG

/-- R78, R111, R114, R115: what a terminal run state says about the instruction `pc` still addresses. -/
def RunTruthful (s : State) : Prop :=
  match s.run with
  | .running => True
  | .halted => s.byteAt s.pc.toNat = opcodeOf .hlt
  | .aborted (.unknownInstruction op) =>
    s.byteAt s.pc.toNat = op ∧ decodeOpcode opcodeOf op = none
  | .aborted (.memoryOutOfRange addr) => addr = 256 ∧ 253 ≤ s.pc.toNat
  | .aborted (.registerOutOfRange i) =>
    8 ≤ i.toNat ∧ (s.byteAt (s.pc.toNat + 1) = i ∨ s.byteAt (s.pc.toNat + 2) = i)
  | .aborted (.unsupportedALUOperation _) => False

/-- The invariant of the machine: memory in canonical form, legal flags, a truthful run state. -/
structure Inv (s : State) : Prop where
  memory : Memory.wf s.mem
  flags : FlagsLegal s.fl
  run : RunTruthful s

/-- R78: the states a run meets: a booted image, and whatever steps lead to from there. -/
inductive Reachable : State → Prop where
  | boot (image : List Byte) (s : State) (h : boot image = .next s) : Reachable s
  | step (s t : State) (hs : Reachable s) (h : step s = .next t) : Reachable t

end Sys2Proof.Safety
end

