-- ==== Sys2Proof/Certificates/Slice0/Obligations.lean ====
section
/-! DEFINITION. The statements for the provers. Opcode values are named through an assignment `om` (or the adopted
`opcodeOf`), registers by their index `k : Fin 8` and the operand byte that names it, `regByte k`. -/

open Sys2Proof Sys2Proof.Machine Sys2Proof.Safety

/-! ### Encoding -/

/-- R57, whole, for every opcode assignment that R55 allows: each of the eleven opcode bytes decodes to its mnemonic
with the operand count in bits 7:6, and every other byte is unknown, so that decoding is total. -/
def Obligations.OpcodeDecodingIsTheClosedTable : Prop :=
  ∀ om : OpcodeMap, om.Valid →
    (decodeOpcode om (om .hlt) = some .hlt ∧ operandCount (om .hlt) = 0) ∧
    (decodeOpcode om (om .push) = some .push ∧ operandCount (om .push) = 1) ∧
    (decodeOpcode om (om .pop) = some .pop ∧ operandCount (om .pop) = 1) ∧
    (decodeOpcode om (om .prn) = some .prn ∧ operandCount (om .prn) = 1) ∧
    (decodeOpcode om (om .jmp) = some .jmp ∧ operandCount (om .jmp) = 1) ∧
    (decodeOpcode om (om .jeq) = some .jeq ∧ operandCount (om .jeq) = 1) ∧
    (decodeOpcode om (om .jne) = some .jne ∧ operandCount (om .jne) = 1) ∧
    (decodeOpcode om (om .ldi) = some .ldi ∧ operandCount (om .ldi) = 2) ∧
    (decodeOpcode om (om .add) = some .add ∧ operandCount (om .add) = 2) ∧
    (decodeOpcode om (om .mul) = some .mul ∧ operandCount (om .mul) = 2) ∧
    (decodeOpcode om (om .cmp) = some .cmp ∧ operandCount (om .cmp) = 2) ∧
    ∀ op : Byte, (∀ m, op ≠ om m) → decodeOpcode om op = none

/-- R50, whole: an instruction is 1, 2 or 3 bytes, its length is 1 + opcode[7:6], and decoding it consumes exactly those
bytes, opcode first, and nothing else of what follows. -/
def Obligations.InstructionLengthIsOnePlusTopTwoBits : Prop :=
  ∀ (om : OpcodeMap) (op : Byte) (rest : List Byte) (i : Instr) (after : List Byte), om.Valid →
    decode om (op :: rest) = .ok (i, after) →
      operandCount op ≤ 2 ∧ (encode om i).length = 1 + operandCount op ∧
      (op :: rest).take (1 + operandCount op) = encode om i ∧
      (op :: rest).drop (1 + operandCount op) = after

/-- Decoding the encoding of any instruction, with any operand bytes, followed by any bytes, gives the instruction and those
bytes back, under every opcode assignment R55 allows (the adopted one, of log entry 1, among them). -/
def Obligations.DecodingAnEncodedInstructionReturnsIt : Prop :=
  (∀ (om : OpcodeMap) (i : Instr) (rest : List Byte), om.Valid →
    decode om (encode om i ++ rest) = .ok (i, rest)) ∧ opcodeOf.Valid

/-- The other direction: bytes that decode are the encoding of what they decode to, followed by the bytes left over, so each
byte sequence has one meaning. -/
def Obligations.DecodedBytesAreTheEncoding : Prop :=
  ∀ (om : OpcodeMap) (bytes : List Byte) (i : Instr) (after : List Byte), om.Valid →
    decode om bytes = .ok (i, after) → bytes = encode om i ++ after

/-- Words written out from R52 and the adopted values of R56 (log entry 1) decode to the instructions they stand for. -/
def Obligations.WrittenOutWordsDecode : Prop :=
  decode opcodeOf [0b00000001] = .ok (.hlt, []) ∧
  decode opcodeOf [0b01000101, 0b00000011] = .ok (.push 3, []) ∧
  decode opcodeOf [0b01000111, 0b00000111] = .ok (.prn 7, []) ∧
  decode opcodeOf [0b01010101, 0b00000010] = .ok (.jeq 2, []) ∧
  decode opcodeOf [0b10000010, 0b00000101, 0b11111111] = .ok (.ldi 5 255, []) ∧
  decode opcodeOf [0b10100000, 0b00000000, 0b00001000] = .ok (.add 0 8, []) ∧
  decode opcodeOf [0b11111111, 0b00000000, 0b00000000] = .error (.unknownOpcode 0b11111111)

/-- R58's count and cases for the adopted values (log entry 1): all 64 bytes with bits 7:6 = 0b11 are unknown, 0x00 is
unknown, a byte that differs from a known opcode only in bits 7:6 is unknown, and 245 bytes are unknown in all. -/
def Obligations.TwoHundredFortyFiveOpcodesAreUnknown : Prop :=
  (∀ op : Byte, operandCount op = 3 → decodeOpcode opcodeOf op = none) ∧
  decodeOpcode opcodeOf 0x00 = none ∧
  (∀ (op : Byte) (m : Mnemonic), op.toNat % 64 = (opcodeOf m).toNat % 64 → op ≠ opcodeOf m →
    decodeOpcode opcodeOf op = none) ∧
  ((List.range 256).filter fun n => (decodeOpcode opcodeOf (BitVec.ofNat 8 n)).isNone).length = 245

/-- R54, whole: the immediate of LDI is the whole second operand byte, loaded as the number it is, 0 to 255, under any opcode
assignment R55 allows; and LDI is the only instruction with an immediate: every operand of every other instruction is a
register index, so no address, offset or displacement is encoded. -/
def Obligations.LdiImmediateIsTheWholeSecondOperandByte : Prop :=
  (∀ (om : OpcodeMap) (reg imm : Byte), om.Valid →
    decode om [om .ldi, reg, imm] = .ok (.ldi reg imm, [])) ∧
  (∀ (s : State) (k : Fin 8) (imm : Byte), s.pc.toNat + 3 ≤ 255 →
    ∃ t, exec (.ldi (regByte k) imm) s = .next t ∧ (t.reg k).toNat = imm.toNat) ∧
  ∀ i : Instr, (∀ reg imm, i ≠ .ldi reg imm) → i.operands = i.regOperands

/-! ### The step -/

/-- A step runs the decoded instruction: when the core runs and the three bytes at `pc` decode to `i`, the step is `exec i` at
that same state (the loop itself moves nothing), for HLT at any address and for every other instruction at
`pc` up to 253. -/
def Obligations.StepRunsTheDecodedInstruction : Prop :=
  ∀ (om : OpcodeMap) (s : State) (i : Instr) (after : List Byte), s.run = .running →
    decode om [s.byteAt s.pc.toNat, s.byteAt (s.pc.toNat + 1), s.byteAt (s.pc.toNat + 2)] = .ok (i, after) →
    i = .hlt ∨ s.pc.toNat + 2 ≤ 255 →
      stepWith om s = exec i s ∧ (om = opcodeOf → step s = exec i s)

/-- R70, first sentences: a step is enabled if and only if the core runs; a halted or aborted core takes none. -/
def Obligations.StepIsEnabledExactlyWhileRunning : Prop :=
  ∀ s : State, ((∃ t, step s = .next t) ↔ s.run = .running) ∧
    (s.run ≠ .running → step s = .fault .notRunning)

/-- HLT is recognised before decoding and operand fetch, at every address, 254 and 255 among them (R72); the core halts with
nothing else changed, `pc` included (R100; the spec's decision D12), and the process status is 0 (R118). The loop has ended:
that a step asked of the halted core answers the fault `notRunning` is the model's reading (log entry 2, DEDUCED), not R72's
words. -/
def Obligations.HaltTestPrecedesDecodeAndOperandFetch : Prop :=
  ∀ (om : OpcodeMap) (s : State), s.run = .running → s.byteAt s.pc.toNat = om .hlt →
    ∃ t, stepWith om s = .next t ∧ t = { s with run := .halted } ∧
      stepWith om t = .fault .notRunning ∧ t.run.exitStatus = some 0

/-- An unknown opcode aborts before any operand fetch, at every address; the reason carries the opcode byte, nothing but `run`
changes (`pc` still addresses the byte), and the process status is 1 (R73). No further instruction executes: that a step
asked of the aborted core answers the fault `notRunning` is the model's reading (log entry 2, DEDUCED), not R73's words. -/
def Obligations.UnknownOpcodeAbortsBeforeOperandFetch : Prop :=
  ∀ (om : OpcodeMap) (s : State), s.run = .running → (∀ m, s.byteAt s.pc.toNat ≠ om m) →
    ∃ t, stepWith om s = .next t ∧
      t = { s with run := .aborted (.unknownInstruction (s.byteAt s.pc.toNat)) } ∧
      stepWith om t = .fault .notRunning ∧ t.run.exitStatus = some 1

/-- Operand fetch (40_execution_cycle.md R74; the spec's decisions D7 and D11): both operand bytes are always read, so a known
instruction other than HLT at 254 or 255 aborts with MemoryOutOfRange(256) and changes nothing else, whatever its operand
count; at any lower address it executes on the two bytes read. -/
def Obligations.OperandFetchReadsBothBytesOrAborts : Prop :=
  ∀ (om : OpcodeMap) (s : State) (m : Mnemonic), s.run = .running →
    decodeOpcode om (s.byteAt s.pc.toNat) = some m → m ≠ .hlt →
    (254 ≤ s.pc.toNat → stepWith om s = .next { s with run := .aborted (.memoryOutOfRange 256) }) ∧
    (s.pc.toNat ≤ 253 →
      stepWith om s = exec (assemble m (s.byteAt (s.pc.toNat + 1)) (s.byteAt (s.pc.toNat + 2))) s)

/-- R77 (the spec's decisions D8 and D10): a step of a running core has exactly one of three outcomes: the core still runs; it
halted with nothing else changed; it aborted with nothing else changed, except that the abort at the advance, met only at
`pc` = 253 and always with payload 256, keeps register and flag effects and leaves `pc`, memory and output alone. -/
def Obligations.StepHasOneOfThreeOutcomes : Prop :=
  ∀ s : State, s.run = .running → ∃ t, step s = .next t ∧
    (t.run = .running ∨ t = { s with run := .halted } ∨
     ∃ r, t.run = .aborted r ∧
      (t = { s with run := .aborted r } ∨
       (s.pc.toNat = 253 ∧ r = .memoryOutOfRange 256 ∧ t.pc = s.pc ∧ t.mem = s.mem ∧ t.out = s.out)))

/-- R16, whole: the loop never advances `pc` on its own. If the core still runs after a step, `pc` is what the executed
instruction's rule makes it: +3 for LDI, ADD, MUL, CMP; +2 for PRN, PUSH, POP and for JEQ and JNE when not taken; a register's
value for JMP and for JEQ and JNE when taken. If it halted or aborted, `pc` is unchanged. -/
def Obligations.ProgramCounterMovesOnlyAsTheInstructionSays : Prop :=
  ∀ s t : State, step s = .next t →
    (t.run ≠ .running → t.pc = s.pc) ∧
    (t.run = .running → ∃ i, fetch opcodeOf s = .ok i ∧
      match i with
      | .ldi _ _ | .add _ _ | .mul _ _ | .cmp _ _ => t.pc.toNat = s.pc.toNat + 3
      | .prn _ | .push _ | .pop _ => t.pc.toNat = s.pc.toNat + 2
      | .jmp r => ∃ k, r = regByte k ∧ t.pc = s.reg k
      | .jeq r =>
        if s.fl.getLsbD 0 then ∃ k, r = regByte k ∧ t.pc = s.reg k else t.pc.toNat = s.pc.toNat + 2
      | .jne r =>
        if s.fl.getLsbD 0 then t.pc.toNat = s.pc.toNat + 2 else ∃ k, r = regByte k ∧ t.pc = s.reg k
      | .hlt => False)

/-! ### Execution: what stops and what completes -/

/-- Executing an instruction never faults and is never refused: in every state and with any operand bytes it answers a next
state (an abort is one). -/
def Obligations.EveryInstructionAnswersANextState : Prop :=
  ∀ (i : Instr) (s : State), ∃ t, exec i s = .next t

/-- RegCheck (60_exceptions.md R113; the spec's decision D9): the first register-index operand above 7, in operand order, aborts the
instruction with that byte as payload and nothing else changed, whatever the flags, and the immediate of LDI is not checked.
This is of `exec`, item 5 of the step: at 254 and 255 operand fetch aborts before it (`OperandFetchReadsBothBytesOrAborts`). -/
def Obligations.FirstInvalidRegisterOperandAborts : Prop :=
  ∀ (i : Instr) (s : State) (r : Byte), i.regOperands.find? (fun b => 7 < b.toNat) = some r →
    exec i s = .next { s with run := .aborted (.registerOutOfRange r) }

/-- LDI (42_load_print.md section 1): `x[reg] <- imm`, any immediate byte stored exactly; pc + 3; nothing else changes. -/
def Obligations.LdiLoadsTheImmediate : Prop :=
  ∀ (s : State) (r : Fin 8) (imm : Byte), s.pc.toNat + 3 ≤ 255 →
    ∃ t, exec (.ldi (regByte r) imm) s = .next t ∧
      t.reg r = imm ∧ (∀ k, k ≠ r → t.reg k = s.reg k) ∧ t.pc.toNat = s.pc.toNat + 3 ∧
      t.fl = s.fl ∧ (∀ addr, t.byteAt addr = s.byteAt addr) ∧ t.run = s.run ∧ t.out = s.out

/-- PRN (42_load_print.md section 2; output as bytes is the spec's decision D13): the register's byte is appended to the
output; pc + 2; nothing else changes. -/
def Obligations.PrnAppendsTheRegisterToTheOutput : Prop :=
  ∀ (s : State) (r : Fin 8), s.pc.toNat + 2 ≤ 255 →
    ∃ t, exec (.prn (regByte r)) s = .next t ∧
      t.out = s.out ++ [s.reg r] ∧ (∀ k, t.reg k = s.reg k) ∧ t.pc.toNat = s.pc.toNat + 2 ∧
      t.fl = s.fl ∧ (∀ addr, t.byteAt addr = s.byteAt addr) ∧ t.run = s.run

/-- ADD (41_alu.md section 2; wrapping is the spec's decision D2): the sum modulo 256, `a` = `b` included; pc + 3; FL, the other
registers, memory and output unchanged. -/
def Obligations.AddWritesTheSumModulo256 : Prop :=
  ∀ (s : State) (a b : Fin 8), s.pc.toNat + 3 ≤ 255 →
    ∃ t, exec (.add (regByte a) (regByte b)) s = .next t ∧
      (t.reg a).toNat = ((s.reg a).toNat + (s.reg b).toNat) % 256 ∧
      (∀ k, k ≠ a → t.reg k = s.reg k) ∧ t.pc.toNat = s.pc.toNat + 3 ∧
      t.fl = s.fl ∧ (∀ addr, t.byteAt addr = s.byteAt addr) ∧ t.run = s.run ∧ t.out = s.out

/-- MUL (41_alu.md section 3; wrapping is the spec's decision D2): the low 8 bits of the product, `a` = `b` included; pc + 3; FL,
the other registers, memory and output unchanged. -/
def Obligations.MulWritesTheProductModulo256 : Prop :=
  ∀ (s : State) (a b : Fin 8), s.pc.toNat + 3 ≤ 255 →
    ∃ t, exec (.mul (regByte a) (regByte b)) s = .next t ∧
      (t.reg a).toNat = (s.reg a).toNat * (s.reg b).toNat % 256 ∧
      (∀ k, k ≠ a → t.reg k = s.reg k) ∧ t.pc.toNat = s.pc.toNat + 3 ∧
      t.fl = s.fl ∧ (∀ addr, t.byteAt addr = s.byteAt addr) ∧ t.run = s.run ∧ t.out = s.out

/-- CMP (41_alu.md section 4; overwriting FL and comparing unsigned are the spec's decisions D5 and D6): the whole of FL becomes
0b001, 0b010 or 0b100, whatever it was; pc + 3; no register, memory or output changes. -/
def Obligations.CmpOverwritesTheFlags : Prop :=
  ∀ (s : State) (a b : Fin 8), s.pc.toNat + 3 ≤ 255 →
    ∃ t, exec (.cmp (regByte a) (regByte b)) s = .next t ∧
      ((s.reg a).toNat = (s.reg b).toNat → t.fl = 0b00000001#8) ∧
      ((s.reg a).toNat < (s.reg b).toNat → t.fl = 0b00000010#8) ∧
      ((s.reg a).toNat > (s.reg b).toNat → t.fl = 0b00000100#8) ∧
      (∀ k, t.reg k = s.reg k) ∧ t.pc.toNat = s.pc.toNat + 3 ∧
      (∀ addr, t.byteAt addr = s.byteAt addr) ∧ t.run = s.run ∧ t.out = s.out

/-- PUSH (43_stack.md section 2; the wrap and the order of the clauses are the spec's decisions D3 and D18): SP is decremented
modulo 256 and the register, read after the decrement, is stored at the new SP; every other byte, every other register, FL and
output are unchanged; pc + 2. `PUSH r7` stores the decremented SP. -/
def Obligations.PushStoresBelowTheStackPointer : Prop :=
  ∀ (s : State) (r : Fin 8), s.pc.toNat + 2 ≤ 255 →
    ∃ t, exec (.push (regByte r)) s = .next t ∧
      pushAddr s = ((s.reg 7).toNat + 255) % 256 ∧ (t.reg 7).toNat = pushAddr s ∧
      t.byteAt (pushAddr s) = (if r = 7 then t.reg 7 else s.reg r) ∧
      (∀ addr, addr ≠ pushAddr s → t.byteAt addr = s.byteAt addr) ∧
      (∀ k, k ≠ 7 → t.reg k = s.reg k) ∧ t.pc.toNat = s.pc.toNat + 2 ∧
      t.fl = s.fl ∧ t.run = s.run ∧ t.out = s.out

/-- POP (43_stack.md section 3; the wrap and the order of the clauses are the spec's decisions D3 and D18): the byte at SP goes to
the register, then SP is incremented modulo 256; `POP r7` leaves the loaded byte plus 1; memory, FL, output and every other
register are unchanged; pc + 2. -/
def Obligations.PopLoadsFromTheStackPointer : Prop :=
  ∀ (s : State) (r : Fin 8), s.pc.toNat + 2 ≤ 255 →
    ∃ t, exec (.pop (regByte r)) s = .next t ∧
      (r ≠ 7 → t.reg r = s.byteAt (s.reg 7).toNat ∧ (t.reg 7).toNat = ((s.reg 7).toNat + 1) % 256) ∧
      (r = 7 → (t.reg 7).toNat = ((s.byteAt (s.reg 7).toNat).toNat + 1) % 256) ∧
      (∀ addr, t.byteAt addr = s.byteAt addr) ∧
      (∀ k, k ≠ r → k ≠ 7 → t.reg k = s.reg k) ∧ t.pc.toNat = s.pc.toNat + 2 ∧
      t.fl = s.fl ∧ t.run = s.run ∧ t.out = s.out

/-- R101: every transfer (JMP always, JEQ with E set, JNE with E clear) puts the byte of the named register in `pc`, at any address
and for any target, and writes nothing but `pc`; and whatever byte stands at the target is the next one decoded, so the
instruction after the jump in memory is not executed. This is of `exec`, item 5 of the step: a jump at 254 or 255 aborts before
it, in operand fetch (`OperandFetchReadsBothBytesOrAborts`). -/
def Obligations.JumpsReplaceThePcAndNothingElse : Prop :=
  ∀ (s : State) (r : Fin 8),
    exec (.jmp (regByte r)) s = .next { s with pc := s.reg r } ∧
    (s.fl.getLsbD 0 = true → exec (.jeq (regByte r)) s = .next { s with pc := s.reg r }) ∧
    (s.fl.getLsbD 0 = false → exec (.jne (regByte r)) s = .next { s with pc := s.reg r }) ∧
    ∀ (om : OpcodeMap) (t : State), s.run = .running → exec (.jmp (regByte r)) s = .next t →
      (s.byteAt (s.reg r).toNat = om .hlt → stepWith om t = .next { t with run := .halted }) ∧
      ((∀ m, s.byteAt (s.reg r).toNat ≠ om m) → stepWith om t =
        .next { t with run := .aborted (.unknownInstruction (s.byteAt (s.reg r).toNat)) }) ∧
      (∀ m, decodeOpcode om (s.byteAt (s.reg r).toNat) = some m → m ≠ .hlt → (s.reg r).toNat + 2 ≤ 255 →
        stepWith om t = exec (assemble m (s.byteAt ((s.reg r).toNat + 1)) (s.byteAt ((s.reg r).toNat + 2))) t)

/-- JEQ and JNE not taken (44_control.md sections 3 and 4): pc + 2 and nothing else. With `JumpsReplaceThePcAndNothingElse`, exactly
one of the two is taken in every state. -/
def Obligations.ConditionalJumpsFallThroughByTwo : Prop :=
  ∀ (s : State) (r : Fin 8), s.pc.toNat + 2 ≤ 255 →
    (s.fl.getLsbD 0 = false → exec (.jeq (regByte r)) s = .next { s with pc := s.pc + 2 }) ∧
    (s.fl.getLsbD 0 = true → exec (.jne (regByte r)) s = .next { s with pc := s.pc + 2 }) ∧
    (s.pc + 2).toNat = s.pc.toNat + 2

/-- HLT (44_control.md section 5): the core halts and nothing else changes, `pc` included, at every address. -/
def Obligations.HltHaltsAndChangesNothingElse : Prop :=
  ∀ s : State, exec .hlt s = .next { s with run := .halted }

/-- AdvancePc past 255, of `exec`, which is item 5 of the step alone: LDI, ADD, MUL or CMP does to registers, flags, memory and
output what it does elsewhere, keeps `pc`, and aborts with MemoryOutOfRange(pc + 3). At 253, the one place a step of a running
core meets it, this is 40_execution_cycle.md R76 (the spec's decision D8). At 254 and 255 it is the model's reading (log entry 5,
DEDUCED): step never asks `exec` there, since operand fetch has aborted with MemoryOutOfRange(256) and no effect
(`OperandFetchReadsBothBytesOrAborts`). -/
def Obligations.AdvancePastTheTopKeepsTheEffectAndAborts : Prop :=
  ∀ (s : State) (i : Instr), i.WellFormed → 253 ≤ s.pc.toNat →
    ((∃ r imm, i = .ldi r imm) ∨ (∃ a b, i = .add a b) ∨ (∃ a b, i = .mul a b) ∨ (∃ a b, i = .cmp a b)) →
    ∃ u, exec i { s with pc := 0 } = .next u ∧ u.run = s.run ∧
      exec i s = .next { u with pc := s.pc, run := .aborted (.memoryOutOfRange (s.pc.toNat + 3)) }

/-- The ALU (30_encoding.md R60, 60_exceptions.md R114; the spec's decision D19): an opcode other than ADD, MUL and CMP routed to it is
an UnsupportedALUOperation abort with nothing else changed; no instruction of the set routes one. That this is reported
before the operands are checked is the model's choice (log entry 7). -/
def Obligations.AluRejectsForeignOpcodes : Prop :=
  (∀ (op a b : Byte) (s : State), op ≠ opcodeOf .add → op ≠ opcodeOf .mul → op ≠ opcodeOf .cmp →
    alu op a b s = .next { s with run := .aborted (.unsupportedALUOperation op) }) ∧
  ∀ (i : Instr) (s t : State) (op : Byte), exec i s = .next t →
    t.run = .aborted (.unsupportedALUOperation op) → s.run = .aborted (.unsupportedALUOperation op)

/-! ### Frames, for every operand byte and every next state, aborts included -/

/-- Frame of LDI, ADD and MUL: every register but the one named first, FL, every byte of memory and the output are unchanged. -/
def Obligations.FrameOfLdiAddMul : Prop :=
  ∀ (s t : State) (i : Instr) (d x : Byte), (i = .ldi d x ∨ i = .add d x ∨ i = .mul d x) →
    exec i s = .next t →
      (∀ k : Fin 8, k.val ≠ d.toNat → t.reg k = s.reg k) ∧ t.fl = s.fl ∧
      (∀ addr, t.byteAt addr = s.byteAt addr) ∧ t.out = s.out

/-- Frame of CMP, PRN, JMP, JEQ, JNE and HLT: no register and no byte of memory changes, FL changes only by CMP, the
output only by PRN. -/
def Obligations.FrameOfCmpPrnJumpsHlt : Prop :=
  ∀ (s t : State) (i : Instr),
    ((∃ a b, i = .cmp a b) ∨ (∃ r, i = .prn r) ∨ (∃ r, i = .jmp r) ∨ (∃ r, i = .jeq r) ∨
      (∃ r, i = .jne r) ∨ i = .hlt) →
    exec i s = .next t →
      (∀ k, t.reg k = s.reg k) ∧ (∀ addr, t.byteAt addr = s.byteAt addr) ∧
      ((∀ a b, i ≠ .cmp a b) → t.fl = s.fl) ∧ ((∀ r, i ≠ .prn r) → t.out = s.out)

/-- Frame of PUSH: every register but SP (register 7), FL, the output, and every byte but the one at the address stored to. -/
def Obligations.FrameOfPush : Prop :=
  ∀ (s t : State) (r : Byte), exec (.push r) s = .next t →
    (∀ k, k ≠ 7 → t.reg k = s.reg k) ∧ t.fl = s.fl ∧ t.out = s.out ∧
    ∀ a, pushAddr s = a → ∀ addr, addr ≠ a → t.byteAt addr = s.byteAt addr

/-- Frame of POP: every register but the one named and SP (register 7), FL, the output, and every byte of memory. -/
def Obligations.FrameOfPop : Prop :=
  ∀ (s t : State) (r : Byte), exec (.pop r) s = .next t →
    (∀ k : Fin 8, k ≠ 7 → k.val ≠ r.toNat → t.reg k = s.reg k) ∧ t.fl = s.fl ∧ t.out = s.out ∧
    ∀ addr, t.byteAt addr = s.byteAt addr

/-! ### Rules of the whole machine -/

/-- FL is set only by CMP (10_state.md R19; decisions D4 and D5), and then to one of its three outcomes. -/
def Obligations.OnlyCmpChangesTheFlags : Prop :=
  ∀ s t : State, step s = .next t → t.fl ≠ s.fl →
    ∃ a b, fetch opcodeOf s = .ok (.cmp (regByte a) (regByte b)) ∧
      (t.fl = 0b001#8 ∨ t.fl = 0b010#8 ∨ t.fl = 0b100#8)

/-- Of the instructions only PUSH writes memory (10_state.md R20, 20_memory.md R34), and only the byte at the decremented SP. -/
def Obligations.OnlyPushWritesMemory : Prop :=
  ∀ s t : State, step s = .next t → t.mem ≠ s.mem →
    ∃ r, fetch opcodeOf s = .ok (.push (regByte r)) ∧
      ∀ addr, addr ≠ pushAddr s → t.byteAt addr = s.byteAt addr

/-- PRN is the only instruction with an effect outside the core (42_load_print.md R92), and it adds exactly one byte. -/
def Obligations.OnlyPrnChangesTheOutput : Prop :=
  ∀ s t : State, step s = .next t → t.out ≠ s.out →
    ∃ r, fetch opcodeOf s = .ok (.prn (regByte r)) ∧ t.out = s.out ++ [s.reg r]

/-- Which instruction writes which register (10_state.md R14, the column of registers written): a register changes only by LDI,
ADD, MUL or POP naming it first, or, for register 7, by PUSH or POP. -/
def Obligations.OnlyNamedRegistersAreWritten : Prop :=
  ∀ (s t : State) (k : Fin 8), step s = .next t → t.reg k ≠ s.reg k →
    ∃ i, fetch opcodeOf s = .ok i ∧
      ((∃ x, i = .ldi (regByte k) x) ∨ (∃ x, i = .add (regByte k) x) ∨ (∃ x, i = .mul (regByte k) x) ∨
        i = .pop (regByte k) ∨ (k = 7 ∧ ∃ r, i = .push (regByte r) ∨ i = .pop (regByte r)))

/-- The output is read by no instruction (10_state.md R22, decision D13): whatever the output held before, the step is the
same step and adds the same bytes. -/
def Obligations.OutputNeverInfluencesAStep : Prop :=
  ∀ s t : State, step s = .next t → ∃ emitted, t.out = s.out ++ emitted ∧
    ∀ before : List Byte, step { s with out := before } = .next { t with out := before ++ emitted }

/-- No instruction reads any bit of FL but E (10_state.md R19): two running states that differ only in the other bits of FL step
to states that differ at most in FL. -/
def Obligations.OnlyTheEqualFlagIsEverRead : Prop :=
  ∀ (s t : State) (fl : Byte), fl.getLsbD 0 = s.fl.getLsbD 0 → step s = .next t →
    ∃ fl', step { s with fl := fl } = .next { t with fl := fl' }

/-- A store is seen by the very next fetch (20_memory.md R43, decision D24): a PUSH onto the address of the next instruction
replaces its opcode; if the byte is HLT's the core halts, and if it is unknown the core aborts on it. -/
def Obligations.PushedByteIsFetchedByTheNextStep : Prop :=
  ∀ (s : State) (r : Fin 8), s.run = .running → fetch opcodeOf s = .ok (.push (regByte r)) → r ≠ 7 →
    pushAddr s = s.pc.toNat + 2 →
    ∃ t, step s = .next t ∧ t.byteAt t.pc.toNat = s.reg r ∧
      (s.reg r = opcodeOf .hlt → step t = .next { t with run := .halted }) ∧
      (decodeOpcode opcodeOf (s.reg r) = none →
        step t = .next { t with run := .aborted (.unknownInstruction (s.reg r)) })

/-- PUSH then POP (43_stack.md section 3): for registers other than 7 the exact value arrives and SP returns to its original
position, across the wrap too; the pushed byte stays in memory. -/
def Obligations.PushThenPopRestoresValueAndStackPointer : Prop :=
  ∀ (s : State) (j k : Fin 8), j ≠ 7 → k ≠ 7 → s.pc.toNat + 4 ≤ 255 →
    ∃ u t, exec (.push (regByte j)) s = .next u ∧ exec (.pop (regByte k)) u = .next t ∧
      t.reg k = s.reg j ∧ t.reg 7 = s.reg 7 ∧ t.byteAt (pushAddr s) = s.reg j ∧
      (∀ l, l ≠ k → t.reg l = s.reg l) ∧ t.pc.toNat = s.pc.toNat + 4

/-- LDI then PRN on the same register (42_load_print.md section 1): the output grows by exactly the immediate. -/
def Obligations.LdiThenPrnEmitsTheImmediate : Prop :=
  ∀ (s : State) (r : Fin 8) (imm : Byte), s.pc.toNat + 5 ≤ 255 →
    ∃ u t, exec (.ldi (regByte r) imm) s = .next u ∧ exec (.prn (regByte r)) u = .next t ∧
      t.out = s.out ++ [imm] ∧ t.pc.toNat = s.pc.toNat + 5

/-- The outcome table of CMP (41_alu.md section 5): a JEQ after CMP a, b is taken exactly when the two registers are equal, a JNE
exactly when they are not. -/
def Obligations.BranchesAfterCmpFollowTheComparison : Prop :=
  ∀ (s : State) (a b r : Fin 8), s.pc.toNat + 5 ≤ 255 →
    ∃ u, exec (.cmp (regByte a) (regByte b)) s = .next u ∧
      (∃ t, exec (.jeq (regByte r)) u = .next t ∧
        t.pc.toNat = if s.reg a = s.reg b then (s.reg r).toNat else s.pc.toNat + 5) ∧
      (∃ t, exec (.jne (regByte r)) u = .next t ∧
        t.pc.toNat = if s.reg a = s.reg b then s.pc.toNat + 5 else (s.reg r).toNat)

/-! ### Memory, reset, image -/

/-- MemRead and MemWrite (20_memory.md R31, R32; the spec's decision D7): in range they read and write one cell, a read returns the
latest write, a write changes that cell alone; out of range they report the address and never wrap. -/
def Obligations.MemoryAccessesAreRangeCheckedAndExact : Prop :=
  ∀ (s : State) (addr : Nat) (v : Byte),
    (addr < 256 → memRead s addr = .ok (s.byteAt addr) ∧ ∃ t, memWrite s addr v = .ok t ∧
      memRead t addr = .ok v ∧ (∀ other, other ≠ addr → memRead t other = memRead s other) ∧
      t = { s with mem := t.mem }) ∧
    (256 ≤ addr → memRead s addr = .error (.memoryOutOfRange addr) ∧
      memWrite s addr v = .error (.memoryOutOfRange addr))

/-- Writing the byte a cell already holds changes nothing (20_memory.md R37), in a memory in canonical form (the invariant of
`EveryStepKeepsTheInvariant`): the whole state is the same data. -/
def Obligations.RewritingTheHeldByteChangesNothing : Prop :=
  ∀ (s : State) (addr : Nat), Memory.wf s.mem → addr < 256 → memWrite s addr (s.byteAt addr) = .ok s

/-- The reset state (10_state.md R25; FL = 0 is the spec's own decision D4, log entry 3): every register, `pc` and FL are 0, every
byte reads 0, the core runs, the output is empty; a reset leaves nothing of the state before. -/
def Obligations.ResetZeroesTheMachine : Prop :=
  (∀ k, State.reset.reg k = 0) ∧ State.reset.pc = 0 ∧ State.reset.fl = 0 ∧
    (∀ addr, State.reset.byteAt addr = 0) ∧ State.reset.run = .running ∧ State.reset.out = [] ∧
    ∀ s, resetPort s = State.reset

/-- The image (70_reset_and_hazards.md R131; decision D17): at most 256 bytes are installed from address 0 up, the rest of memory is
0, and registers, `pc`, FL, `run` and output keep their reset values; a longer image is refused. -/
def Obligations.BootInstallsTheImage : Prop :=
  ∀ image : List Byte,
    (image.length ≤ 256 → ∃ s, boot image = .next s ∧
      (∀ (i : Nat) (h : i < image.length), s.byteAt i = image[i]) ∧
      (∀ i, image.length ≤ i → s.byteAt i = 0) ∧ s = { State.reset with mem := s.mem }) ∧
    (256 < image.length → boot image = .refused (.imageTooLong image.length))

/-- The exit status of the process (60_exceptions.md section 3; the spec's decision D15 for the bounds aborts, log entry 6): none while
the core runs, 0 after HLT, 1 after an unknown instruction, and some non-zero number, the same for both, after a bounds abort. -/
def Obligations.ExitStatusFollowsTheTerminalState : Prop :=
  RunState.running.exitStatus = none ∧ RunState.halted.exitStatus = some 0 ∧
    (∀ op, (RunState.aborted (.unknownInstruction op)).exitStatus = some 1) ∧
    ∃ n, n ≠ 0 ∧ (∀ addr, (RunState.aborted (.memoryOutOfRange addr)).exitStatus = some n) ∧
      ∀ i, (RunState.aborted (.registerOutOfRange i)).exitStatus = some n

/-- The reset state meets the invariant. -/
def Obligations.ResetMeetsTheInvariant : Prop := Inv State.reset

/-- Every step keeps the invariant, from every state that meets it, reachable or not: memory stays canonical within 256 cells, FL
stays one of its four values, and a halted or aborted core tells the truth about the instruction `pc` addresses
(10_state.md R19, 40_execution_cycle.md R78, 60_exceptions.md R111, R115). -/
def Obligations.EveryStepKeepsTheInvariant : Prop :=
  ∀ s t : State, Inv s → step s = .next t → Inv t

/-- In every state reachable from any booted image, FL is one of its four values, an out-of-range address is always 256, and no
UnsupportedALUOperation ever occurs (10_state.md R19, 60_exceptions.md R111, R114). -/
def Obligations.ReachableStatesMeetTheSpecsBounds : Prop :=
  ∀ s : State, Reachable s →
    (s.fl = 0b000#8 ∨ s.fl = 0b001#8 ∨ s.fl = 0b010#8 ∨ s.fl = 0b100#8) ∧
    (∀ addr, s.run = .aborted (.memoryOutOfRange addr) → addr = 256) ∧
    (∀ op, s.run ≠ .aborted (.unsupportedALUOperation op))
end

