-- ==== Sys2Proof/Laws/Decode.lean ====
section
/-! SUPPORT. The small laws of the opcode table and of assembling an instruction. -/

namespace Sys2Proof

theorem Mnemonic.mem_all (m : Mnemonic) : m ∈ Mnemonic.all := by
  cases m <;> decide

theorem opcodeOf_valid : opcodeOf.Valid := by
  refine ⟨fun m n => ?_, fun m => ?_, fun m => ?_⟩
  · cases m <;> cases n <;> decide
  · cases m <;> decide
  · cases m <;> decide

theorem decodeOpcode_some (om : OpcodeMap) (op : Byte) (m : Mnemonic)
    (h : decodeOpcode om op = some m) : om m = op := by
  simpa using List.find?_some h

theorem decodeOpcode_none (om : OpcodeMap) (op : Byte) :
    decodeOpcode om op = none ↔ ∀ m, om m ≠ op := by
  simp only [decodeOpcode, List.find?_eq_none, beq_iff_eq]
  exact ⟨fun h m => h m m.mem_all, fun h m _ => h m⟩

@[simp] theorem assemble_mnemonic (m : Mnemonic) (a b : Byte) : (assemble m a b).mnemonic = m := by
  cases m <;> rfl

theorem operands_length (i : Instr) : i.operands.length = i.mnemonic.arity := by
  cases i <;> rfl

/-- An instruction is assembled from its own operation and its own operand bytes. -/
theorem assemble_operands (i : Instr) (rest : List Byte) :
    assemble i.mnemonic ((i.operands ++ rest).getD 0 0) ((i.operands ++ rest).getD 1 0) = i := by
  cases i <;> rfl

end Sys2Proof
end

