-- ==== Sys2Proof/Laws/Memory.lean ====
section
/-! SUPPORT. The laws of memory: a read after a write, and the canonical form kept by every memory operation. -/

namespace Sys2Proof.Machine.Memory

/-- A list that lists no cell at `addr` reads there as the unlisted byte. -/
theorem read_of_not_listed (m : Memory) (addr : Nat) (h : ∀ c ∈ m, c.1 ≠ addr) :
    read m addr = unlisted := by
  induction m with
  | nil => rfl
  | cons c rest ih =>
    rw [read, if_neg (h c (List.mem_cons_self ..))]
    exact ih fun d hd => h d (List.mem_cons_of_mem _ hd)

theorem mem_erase (m : Memory) (addr : Nat) (c : Host.Cell) :
    c ∈ erase m addr ↔ c ∈ m ∧ c.1 ≠ addr := by
  simp [erase]

theorem read_erase_same (m : Memory) (addr : Nat) : read (erase m addr) addr = unlisted :=
  read_of_not_listed _ _ fun c hc => ((mem_erase m addr c).mp hc).2

theorem read_erase_other (m : Memory) (addr other : Nat) (h : other ≠ addr) :
    read (erase m addr) other = read m other := by
  induction m with
  | nil => rfl
  | cons c rest ih =>
    unfold erase at ih ⊢
    by_cases hc : c.1 = addr
    · have : c.1 ≠ other := fun e => h (e.symm.trans hc)
      simp [hc, ih, read, hc ▸ this]
    · simp only [List.filter_cons, bne_iff_ne, ne_eq, hc, not_false_eq_true, if_true, read, ih]

theorem read_insert_other (m : Memory) (addr other : Nat) (v : Byte) (h : other ≠ addr) :
    read (insert addr v m) other = read m other := by
  induction m with
  | nil => simp [insert, read, h.symm]
  | cons c rest ih =>
    unfold insert
    split
    · simp [read, h.symm]
    · simp [read, ih]

theorem read_insert_same (m : Memory) (addr : Nat) (v : Byte) (h : ∀ c ∈ m, c.1 ≠ addr) :
    read (insert addr v m) addr = v := by
  induction m with
  | nil => simp [insert, read]
  | cons c rest ih =>
    unfold insert
    split
    · simp [read]
    · rw [read, if_neg (h c (List.mem_cons_self ..))]
      exact ih fun d hd => h d (List.mem_cons_of_mem _ hd)

/-- R32, R41: a read returns the value of the most recent write to that cell, and a write changes no other cell. -/
theorem read_write (m : Memory) (addr other : Nat) (v : Byte) :
    read (write m addr v) other = if other = addr then v else read m other := by
  unfold write
  split
  · next hv =>
    split
    · next e => rw [e, read_erase_same, hv]
    · next e => exact read_erase_other m addr other e
  · split
    · next e =>
      rw [e]
      exact read_insert_same _ _ _ fun c hc => ((mem_erase m addr c).mp hc).2
    · next e => rw [read_insert_other _ _ _ _ e, read_erase_other _ _ _ e]

theorem mem_insert (m : Memory) (addr : Nat) (v : Byte) (c : Host.Cell) :
    c ∈ insert addr v m ↔ c = (addr, v) ∨ c ∈ m := by
  induction m with
  | nil => simp [insert]
  | cons d rest ih =>
    unfold insert
    split
    · simp
    · simp only [List.mem_cons, ih]
      tauto

theorem sorted_insert (m : Memory) (addr : Nat) (v : Byte)
    (hs : m.Pairwise fun c d => c.1 < d.1) (h : ∀ c ∈ m, c.1 ≠ addr) :
    (insert addr v m).Pairwise fun c d => c.1 < d.1 := by
  induction m with
  | nil => simp [insert]
  | cons d rest ih =>
    have hd := List.pairwise_cons.mp hs
    unfold insert
    split
    · next hlt =>
      refine List.pairwise_cons.mpr ⟨fun c hc => ?_, hs⟩
      rcases List.mem_cons.mp hc with rfl | hc
      · exact hlt
      · exact Nat.lt_trans hlt (hd.1 c hc)
    · next hge =>
      refine List.pairwise_cons.mpr
        ⟨fun c hc => ?_, ih hd.2 fun c hc => h c (List.mem_cons_of_mem _ hc)⟩
      rcases (mem_insert rest addr v c).mp hc with rfl | hc
      · have := h d (List.mem_cons_self ..)
        exact Nat.lt_of_le_of_ne (Nat.le_of_not_lt hge) this
      · exact hd.1 c hc

theorem wf_erase (m : Memory) (addr : Nat) (h : wf m) : wf (erase m addr) :=
  ⟨h.1.filter _, fun c hc => h.2 c ((mem_erase m addr c).mp hc).1⟩

/-- A write within the address space keeps the canonical form. -/
theorem wf_write (m : Memory) (addr : Nat) (v : Byte) (ha : addr < Config.memSize) (h : wf m) :
    wf (write m addr v) := by
  have he := wf_erase m addr h
  unfold write
  split
  · exact he
  · next hv =>
    refine ⟨sorted_insert _ _ _ he.1 fun c hc => ((mem_erase m addr c).mp hc).2, fun c hc => ?_⟩
    rcases (mem_insert _ addr v c).mp hc with rfl | hc
    · exact ⟨ha, hv⟩
    · exact he.2 c hc

theorem wf_writeBytes (vs : List Byte) : ∀ (m : Memory) (addr : Nat),
    addr + vs.length ≤ Config.memSize → wf m → wf (writeBytes m addr vs) := by
  induction vs with
  | nil => exact fun _ _ _ h => h
  | cons v vs ih =>
    intro m addr hlen h
    simp only [List.length_cons] at hlen
    exact ih _ _ (by omega) (wf_write m addr v (by omega) h)

/-- Bytes written at successive addresses read back, and nothing else changes. -/
theorem read_writeBytes (vs : List Byte) : ∀ (m : Memory) (addr other : Nat),
    read (writeBytes m addr vs) other =
      if addr ≤ other ∧ other < addr + vs.length then vs.getD (other - addr) 0 else read m other := by
  induction vs with
  | nil => intro m addr other; simp [writeBytes]
  | cons v vs ih =>
    intro m addr other
    rw [writeBytes, ih, read_write]
    by_cases he : other = addr
    · subst he; simp
    · by_cases hr : addr + 1 ≤ other ∧ other < addr + 1 + vs.length
      · have hs : other - addr = (other - (addr + 1)) + 1 := by omega
        rw [if_pos hr, if_pos (by simp only [List.length_cons]; omega), hs, List.getD_cons_succ]
      · rw [if_neg hr, if_neg he, if_neg (by simp only [List.length_cons]; omega)]

/-- Canonical memories that read alike at every address are the same list. -/
theorem eq_of_read_eq (m n : Memory) (hm : wf m) (hn : wf n) (h : ∀ addr, read m addr = read n addr) :
    m = n := by
  induction m generalizing n with
  | nil =>
    cases n with
    | nil => rfl
    | cons d n =>
      have := h d.1
      simp only [read, if_true] at this
      exact absurd this.symm (hn.2 d (List.mem_cons_self ..)).2
  | cons c m ih =>
    have hc := List.pairwise_cons.mp hm.1
    cases n with
    | nil =>
      have := h c.1
      simp only [read, if_true] at this
      exact absurd this (hm.2 c (List.mem_cons_self ..)).2
    | cons d n =>
      have hd := List.pairwise_cons.mp hn.1
      have rc : read (c :: m) c.1 = c.2 := by simp [read]
      have rd : read (d :: n) d.1 = d.2 := by simp [read]
      have below : ∀ (e : Host.Cell) (l : Memory) (a : Nat), (∀ x ∈ l, e.1 < x.1) → a < e.1 →
          read (e :: l) a = unlisted := fun e l a hl ha => read_of_not_listed _ _ fun x hx => by
        rcases List.mem_cons.mp hx with rfl | hx
        · omega
        · have := hl x hx; omega
      have haddr : c.1 = d.1 := by
        rcases Nat.lt_trichotomy c.1 d.1 with hlt | he | hlt
        · exact absurd ((rc.symm.trans (h c.1)).trans (below d n c.1 hd.1 hlt))
            (hm.2 c (List.mem_cons_self ..)).2
        · exact he
        · exact absurd ((rd.symm.trans (h d.1).symm).trans (below c m d.1 hc.1 hlt))
            (hn.2 d (List.mem_cons_self ..)).2
      have hval : c.2 = d.2 := rc.symm.trans ((h c.1).trans (haddr ▸ rd))
      have hcd : c = d := Prod.ext haddr hval
      subst hcd
      congr 1
      refine ih n ⟨hc.2, fun x hx => hm.2 x (List.mem_cons_of_mem _ hx)⟩
        ⟨hd.2, fun x hx => hn.2 x (List.mem_cons_of_mem _ hx)⟩ fun a => ?_
      by_cases ha : c.1 = a
      · subst ha
        rw [read_of_not_listed m _ fun x hx => Nat.ne_of_gt (hc.1 x hx),
          read_of_not_listed n _ fun x hx => Nat.ne_of_gt (hd.1 x hx)]
      · have := h a
        simpa [read, ha] using this

end Sys2Proof.Machine.Memory
end

