-- ==== Sys2Proof/Laws/State.lean ====
section
/-! SUPPORT. One lemma per field per update of the state, and the laws of the register file. -/

namespace Sys2Proof.Machine

theorem Regs.get_set (g : Regs) (i j : Fin 8) (v : Byte) :
    (g.set i v).get j = if j = i then v else g.get j := by
  fin_cases i <;> fin_cases j <;> rfl

namespace State

variable (s : State) (i j : Fin 8) (v : Byte) (r : RunState) (m : Memory)

@[simp] theorem setReg_pc : (s.setReg i v).pc = s.pc := rfl
@[simp] theorem setReg_fl : (s.setReg i v).fl = s.fl := rfl
@[simp] theorem setReg_mem : (s.setReg i v).mem = s.mem := rfl
@[simp] theorem setReg_run : (s.setReg i v).run = s.run := rfl
@[simp] theorem setReg_out : (s.setReg i v).out = s.out := rfl
@[simp] theorem setReg_regs : (s.setReg i v).regs = s.regs.set i v := rfl

@[simp] theorem setPc_regs : (s.setPc v).regs = s.regs := rfl
@[simp] theorem setPc_pc : (s.setPc v).pc = v := rfl
@[simp] theorem setPc_fl : (s.setPc v).fl = s.fl := rfl
@[simp] theorem setPc_mem : (s.setPc v).mem = s.mem := rfl
@[simp] theorem setPc_run : (s.setPc v).run = s.run := rfl
@[simp] theorem setPc_out : (s.setPc v).out = s.out := rfl

@[simp] theorem setFl_regs : (s.setFl v).regs = s.regs := rfl
@[simp] theorem setFl_pc : (s.setFl v).pc = s.pc := rfl
@[simp] theorem setFl_fl : (s.setFl v).fl = v := rfl
@[simp] theorem setFl_mem : (s.setFl v).mem = s.mem := rfl
@[simp] theorem setFl_run : (s.setFl v).run = s.run := rfl
@[simp] theorem setFl_out : (s.setFl v).out = s.out := rfl

@[simp] theorem setRun_regs : (s.setRun r).regs = s.regs := rfl
@[simp] theorem setRun_pc : (s.setRun r).pc = s.pc := rfl
@[simp] theorem setRun_fl : (s.setRun r).fl = s.fl := rfl
@[simp] theorem setRun_mem : (s.setRun r).mem = s.mem := rfl
@[simp] theorem setRun_run : (s.setRun r).run = r := rfl
@[simp] theorem setRun_out : (s.setRun r).out = s.out := rfl

@[simp] theorem setMem_regs : (s.setMem m).regs = s.regs := rfl
@[simp] theorem setMem_pc : (s.setMem m).pc = s.pc := rfl
@[simp] theorem setMem_fl : (s.setMem m).fl = s.fl := rfl
@[simp] theorem setMem_mem : (s.setMem m).mem = m := rfl
@[simp] theorem setMem_run : (s.setMem m).run = s.run := rfl
@[simp] theorem setMem_out : (s.setMem m).out = s.out := rfl

@[simp] theorem emit_regs : (s.emit v).regs = s.regs := rfl
@[simp] theorem emit_pc : (s.emit v).pc = s.pc := rfl
@[simp] theorem emit_fl : (s.emit v).fl = s.fl := rfl
@[simp] theorem emit_mem : (s.emit v).mem = s.mem := rfl
@[simp] theorem emit_run : (s.emit v).run = s.run := rfl
@[simp] theorem emit_out : (s.emit v).out = s.out ++ [v] := rfl

@[simp] theorem reg_setReg : (s.setReg i v).reg j = if j = i then v else s.reg j :=
  Regs.get_set s.regs i j v
@[simp] theorem reg_setPc : (s.setPc v).reg j = s.reg j := rfl
@[simp] theorem reg_setFl : (s.setFl v).reg j = s.reg j := rfl
@[simp] theorem reg_setMem : (s.setMem m).reg j = s.reg j := rfl
@[simp] theorem reg_setRun : (s.setRun r).reg j = s.reg j := rfl
@[simp] theorem reg_emit : (s.emit v).reg j = s.reg j := rfl

variable (addr : Nat)

@[simp] theorem byteAt_setReg : (s.setReg i v).byteAt addr = s.byteAt addr := rfl
@[simp] theorem byteAt_setPc : (s.setPc v).byteAt addr = s.byteAt addr := rfl
@[simp] theorem byteAt_setFl : (s.setFl v).byteAt addr = s.byteAt addr := rfl
@[simp] theorem byteAt_setMem : (s.setMem m).byteAt addr = m.read addr := rfl
@[simp] theorem byteAt_setRun : (s.setRun r).byteAt addr = s.byteAt addr := rfl
@[simp] theorem byteAt_emit : (s.emit v).byteAt addr = s.byteAt addr := rfl

end State

end Sys2Proof.Machine
end

