-- ==== Sys2Proof/Laws/Ops.lean ====
section
/-! SUPPORT. One lemma per shared operation of Machine/Ops.lean, Operands.lean, Flags.lean and Alu.lean: everything it
can do. Proofs about instructions cite these instead of unfolding the operation. -/

namespace Sys2Proof.Machine

/-! ### Operand bytes -/

@[simp] theorem regByte_toNat (i : Fin 8) : (regByte i).toNat = i.val := by
  fin_cases i <;> rfl

theorem regByte_injective (i j : Fin 8) (h : regByte i = regByte j) : i = j := by
  have := congrArg BitVec.toNat h
  simpa [Fin.ext_iff] using this

@[simp] theorem regCheck_regByte (i : Fin 8) : regCheck (regByte i) = .ok i := by
  fin_cases i <;> rfl

/-- R113: the check either names the register of a byte 0 to 7, or reports the byte. -/
theorem regCheck_cases (b : Byte) :
    (∃ i : Fin 8, b = regByte i ∧ regCheck b = .ok i) ∨
    (8 ≤ b.toNat ∧ regCheck b = .error (.registerOutOfRange b)) := by
  by_cases h : b.toNat < 8
  · refine .inl ⟨⟨b.toNat, h⟩, ?_, by simp [regCheck, h]⟩
    exact BitVec.eq_of_toNat_eq (by simp)
  · exact .inr ⟨by omega, by simp [regCheck, h]⟩

theorem regCheck_of_large (b : Byte) (h : 8 ≤ b.toNat) :
    regCheck b = .error (.registerOutOfRange b) := by
  have : ¬ b.toNat < 8 := by omega
  simp [regCheck, this]

@[simp] theorem withReg_regByte (i : Fin 8) (s : State) (k : Fin 8 → Host.Outcome State Fault Refusal) :
    withReg (regByte i) s k = k i := by
  simp [withReg]

theorem withReg_of_large (b : Byte) (s : State) (k : Fin 8 → Host.Outcome State Fault Refusal)
    (h : 8 ≤ b.toNat) : withReg b s k = .next (s.setRun (.aborted (.registerOutOfRange b))) := by
  simp [withReg, regCheck_of_large b h, raiseAbort]

/-- R113: a register operand either names a register and the instruction goes on with it, or aborts with nothing done. -/
theorem withReg_cases (b : Byte) (s : State) (k : Fin 8 → Host.Outcome State Fault Refusal) :
    (∃ i : Fin 8, b = regByte i ∧ withReg b s k = k i) ∨
    (8 ≤ b.toNat ∧ withReg b s k = .next (s.setRun (.aborted (.registerOutOfRange b)))) := by
  by_cases h : 8 ≤ b.toNat
  · exact .inr ⟨h, withReg_of_large b s k h⟩
  · rcases regCheck_cases b with ⟨i, rfl, -⟩ | ⟨h', -⟩
    · exact .inl ⟨i, rfl, withReg_regByte i s k⟩
    · exact absurd h' h

/-! ### The sequential advance -/

theorem advancePc_inside (w : Nat) (s : State) (h : s.pc.toNat + w ≤ 255) :
    advancePc w s = .next (s.setPc (BitVec.ofNat 8 (s.pc.toNat + w))) := by
  simp [advancePc, h]

theorem advancePc_past (w : Nat) (s : State) (h : 255 < s.pc.toNat + w) :
    advancePc w s = .next (s.setRun (.aborted (.memoryOutOfRange (s.pc.toNat + w)))) := by
  have : ¬ s.pc.toNat + w ≤ 255 := by omega
  simp [advancePc, raiseAbort, this]

/-- R76: the advance sets `pc` or aborts; nothing else. -/
theorem advancePc_cases (w : Nat) (s t : State) (h : advancePc w s = .next t) :
    (s.pc.toNat + w ≤ 255 ∧ t = s.setPc (BitVec.ofNat 8 (s.pc.toNat + w))) ∨
    (255 < s.pc.toNat + w ∧ t = s.setRun (.aborted (.memoryOutOfRange (s.pc.toNat + w)))) := by
  by_cases hw : s.pc.toNat + w ≤ 255
  · rw [advancePc_inside w s hw] at h
    exact .inl ⟨hw, (Host.Outcome.next.inj h).symm⟩
  · rw [advancePc_past w s (by omega)] at h
    exact .inr ⟨by omega, (Host.Outcome.next.inj h).symm⟩

theorem toNat_advanced (pc : Byte) (w : Nat) (h : pc.toNat + w ≤ 255) :
    (BitVec.ofNat 8 (pc.toNat + w)).toNat = pc.toNat + w := by
  simp; omega

/-! ### Arithmetic -/

theorem wrapAdd_toNat (x y : Byte) : (wrapAdd x y).toNat = (x.toNat + y.toNat) % 256 := by
  simp [wrapAdd]

theorem wrapMul_toNat (x y : Byte) : (wrapMul x y).toNat = x.toNat * y.toNat % 256 := by
  simp [wrapMul]

theorem wrapDec_toNat (x : Byte) : (wrapDec x).toNat = (x.toNat + 255) % 256 := by
  have hx := x.isLt
  simp only [wrapDec, BitVec.toNat_ofInt, Int.ofNat_eq_natCast]
  omega

theorem wrapInc_toNat (x : Byte) : (wrapInc x).toNat = (x.toNat + 1) % 256 := by
  simp [wrapInc]

/-- R96: decrement and increment undo each other, across the wrap too. -/
theorem wrapInc_wrapDec (x : Byte) : wrapInc (wrapDec x) = x := by
  have hx := x.isLt
  apply BitVec.eq_of_toNat_eq
  rw [wrapInc_toNat, wrapDec_toNat]
  omega

/-! ### Memory accesses -/

theorem memRead_inside (s : State) (addr : Nat) (h : addr ≤ 255) :
    memRead s addr = .ok (s.byteAt addr) := by
  have : ¬ Config.memSize ≤ addr := by simp [Config.memSize]; omega
  simp [memRead, this]

theorem memRead_past (s : State) (addr : Nat) (h : 255 < addr) :
    memRead s addr = .error (.memoryOutOfRange addr) := by
  have : Config.memSize ≤ addr := by simp [Config.memSize]; omega
  simp [memRead, this]

@[simp] theorem memRead_byte (s : State) (b : Byte) : memRead s b.toNat = .ok (s.byteAt b.toNat) :=
  memRead_inside s _ (by have := b.isLt; omega)

@[simp] theorem memWrite_byte (s : State) (b v : Byte) :
    memWrite s b.toNat v = .ok (s.setMem (s.mem.write b.toNat v)) := by
  have hb := b.isLt
  have : ¬ Config.memSize ≤ b.toNat := by simp [Config.memSize]; omega
  simp [memWrite, this]

/-- R32: a write in range changes one cell and nothing else. -/
theorem memWrite_cases (s t : State) (addr : Nat) (v : Byte) (h : memWrite s addr v = .ok t) :
    addr < Config.memSize ∧ t = s.setMem (s.mem.write addr v) := by
  unfold memWrite at h
  split at h
  · cases h
  · exact ⟨by omega, (Except.ok.inj h).symm⟩

/-! ### Flags -/

/-- R87: the three outcomes of a comparison, one flag each. -/
theorem cmpFlags_cases (x y : Byte) :
    (x = y ∧ cmpFlags x y = flagE) ∨ (x.toNat < y.toNat ∧ cmpFlags x y = flagL) ∨
    (y.toNat < x.toNat ∧ cmpFlags x y = flagG) := by
  unfold cmpFlags
  by_cases h : x = y
  · exact .inl ⟨h, by simp [h]⟩
  · have hn : x.toNat ≠ y.toNat := fun e => h (BitVec.eq_of_toNat_eq e)
    by_cases hl : x.toNat < y.toNat
    · exact .inr (.inl ⟨hl, by simp [h, hl]⟩)
    · exact .inr (.inr ⟨by omega, by simp [h, hl]⟩)

/-- R89: after a comparison E is set exactly when the bytes are equal. -/
theorem equalSet_cmpFlags (x y : Byte) : equalSet (cmpFlags x y) = decide (x = y) := by
  rcases cmpFlags_cases x y with ⟨h, e⟩ | ⟨h, e⟩ | ⟨h, e⟩
  · rw [e]; simp only [h, decide_true]; rfl
  · have hne : x ≠ y := by rintro rfl; omega
    rw [e]; simp only [hne, decide_false]; rfl
  · have hne : x ≠ y := by rintro rfl; omega
    rw [e]; simp only [hne, decide_false]; rfl

/-! ### The ALU -/

@[simp] theorem aluSelect_add : aluSelect (opcodeOf .add) = .ok .add := rfl
@[simp] theorem aluSelect_mul : aluSelect (opcodeOf .mul) = .ok .mul := rfl
@[simp] theorem aluSelect_cmp : aluSelect (opcodeOf .cmp) = .ok .cmp := rfl

/-- R88, R113: an ALU instruction checks `a`, then `b`, then performs its operation and advances by 3. -/
theorem alu_of_select (op a b : Byte) (sel : AluSelect) (s : State) (h : aluSelect op = .ok sel) :
    alu op a b s =
      withReg a s fun ra => withReg b s fun rb => advancePc 3 (aluEffect sel ra rb s) := by
  simp [alu, h]

end Sys2Proof.Machine
end

