-- ==== Sys2Proof/Laws/Exec.lean ====
section
/-! SUPPORT. One equation per instruction: what `exec` is when its register operands name registers. The other operands are
`withReg_of_large`'s. -/

namespace Sys2Proof.Machine

variable (s : State) (r a b : Fin 8)

theorem exec_hlt : exec .hlt s = .next (s.setRun .halted) := rfl

theorem exec_ldi (imm : Byte) : exec (.ldi (regByte r) imm) s = advancePc 3 (s.setReg r imm) := by
  simp [exec, execLdi]

theorem exec_prn : exec (.prn (regByte r)) s = advancePc 2 (s.emit (s.reg r)) := by
  simp [exec, execPrn]

theorem exec_add : exec (.add (regByte a) (regByte b)) s =
    advancePc 3 (s.setReg a (wrapAdd (s.reg a) (s.reg b))) := by
  simp [exec, execAdd, alu, aluEffect]

theorem exec_mul : exec (.mul (regByte a) (regByte b)) s =
    advancePc 3 (s.setReg a (wrapMul (s.reg a) (s.reg b))) := by
  simp [exec, execMul, alu, aluEffect]

theorem exec_cmp : exec (.cmp (regByte a) (regByte b)) s =
    advancePc 3 (s.setFl (cmpFlags (s.reg a) (s.reg b))) := by
  simp [exec, execCmp, alu, aluEffect]

/-- The state PUSH has made when it comes to its advance. -/
theorem exec_push : exec (.push (regByte r)) s =
    advancePc 2 ((s.setReg sp (wrapDec (s.reg sp))).setMem
      (s.mem.write (pushAddr s) (if r = sp then wrapDec (s.reg sp) else s.reg r))) := by
  simp [exec, execPush, pushAddr]

/-- The state POP has made when it comes to its advance. -/
theorem exec_pop : exec (.pop (regByte r)) s =
    advancePc 2 ((s.setReg r (s.byteAt (popAddr s))).setReg sp
      (wrapInc (if sp = r then s.byteAt (popAddr s) else s.reg sp))) := by
  simp [exec, execPop, popAddr]

theorem exec_jmp : exec (.jmp (regByte r)) s = .next (s.setPc (s.reg r)) := by
  simp [exec, execJmp, jumpTo]

theorem exec_jeq : exec (.jeq (regByte r)) s =
    if equalSet s.fl then .next (s.setPc (s.reg r)) else advancePc 2 s := by
  simp [exec, execJeq, jumpTo]

theorem exec_jne : exec (.jne (regByte r)) s =
    if equalSet s.fl then advancePc 2 s else .next (s.setPc (s.reg r)) := by
  simp [exec, execJne, jumpTo]

/-! ### Inversion -/

/-- Everything an instruction can do (R75): abort on a register operand above 7 with nothing else changed, or one of the
following, up to the outcome of its own advance. -/
inductive Effect : Instr → State → State → Prop
  | badRegister (i : Instr) (s : State) (b : Byte) (hb : b ∈ i.regOperands) (h8 : 8 ≤ b.toNat) :
    Effect i s (s.setRun (.aborted (.registerOutOfRange b)))
  | hlt (s : State) : Effect .hlt s (s.setRun .halted)
  | ldi (s : State) (r : Fin 8) (imm : Byte) (t : State) (h : advancePc 3 (s.setReg r imm) = .next t) :
    Effect (.ldi (regByte r) imm) s t
  | prn (s : State) (r : Fin 8) (t : State) (h : advancePc 2 (s.emit (s.reg r)) = .next t) :
    Effect (.prn (regByte r)) s t
  | add (s : State) (a b : Fin 8) (t : State)
    (h : advancePc 3 (s.setReg a (wrapAdd (s.reg a) (s.reg b))) = .next t) :
    Effect (.add (regByte a) (regByte b)) s t
  | mul (s : State) (a b : Fin 8) (t : State)
    (h : advancePc 3 (s.setReg a (wrapMul (s.reg a) (s.reg b))) = .next t) :
    Effect (.mul (regByte a) (regByte b)) s t
  | cmp (s : State) (a b : Fin 8) (t : State)
    (h : advancePc 3 (s.setFl (cmpFlags (s.reg a) (s.reg b))) = .next t) :
    Effect (.cmp (regByte a) (regByte b)) s t
  | push (s : State) (r : Fin 8) (t : State)
    (h : advancePc 2 ((s.setReg sp (wrapDec (s.reg sp))).setMem
      (s.mem.write (pushAddr s) (if r = sp then wrapDec (s.reg sp) else s.reg r))) = .next t) :
    Effect (.push (regByte r)) s t
  | pop (s : State) (r : Fin 8) (t : State)
    (h : advancePc 2 ((s.setReg r (s.byteAt (popAddr s))).setReg sp
      (wrapInc (if sp = r then s.byteAt (popAddr s) else s.reg sp))) = .next t) :
    Effect (.pop (regByte r)) s t
  | jmp (s : State) (r : Fin 8) : Effect (.jmp (regByte r)) s (s.setPc (s.reg r))
  | jeqTaken (s : State) (r : Fin 8) (he : equalSet s.fl = true) :
    Effect (.jeq (regByte r)) s (s.setPc (s.reg r))
  | jeqFalls (s : State) (r : Fin 8) (t : State) (he : equalSet s.fl = false)
    (h : advancePc 2 s = .next t) : Effect (.jeq (regByte r)) s t
  | jneTaken (s : State) (r : Fin 8) (he : equalSet s.fl = false) :
    Effect (.jne (regByte r)) s (s.setPc (s.reg r))
  | jneFalls (s : State) (r : Fin 8) (t : State) (he : equalSet s.fl = true)
    (h : advancePc 2 s = .next t) : Effect (.jne (regByte r)) s t

/-- A register operand of an instruction that answered a next state. -/
theorem withReg_next (b : Byte) (s t : State) (k : Fin 8 → Host.Outcome State Fault Refusal)
    (h : withReg b s k = .next t) :
    (∃ r, b = regByte r ∧ k r = .next t) ∨
    (8 ≤ b.toNat ∧ t = s.setRun (.aborted (.registerOutOfRange b))) := by
  rcases withReg_cases b s k with ⟨r, e, hk⟩ | ⟨h8, hk⟩
  · exact .inl ⟨r, e, hk ▸ h⟩
  · exact .inr ⟨h8, (Host.Outcome.next.inj (hk ▸ h)).symm⟩

/-- The two register operands of an ALU instruction that answered a next state. -/
theorem alu_next (op a b : Byte) (sel : AluSelect) (s t : State) (hs : aluSelect op = .ok sel)
    (h : alu op a b s = .next t) :
    (∃ ra rb, a = regByte ra ∧ b = regByte rb ∧ advancePc 3 (aluEffect sel ra rb s) = .next t) ∨
    (∃ r ∈ [a, b], 8 ≤ r.toNat ∧ t = s.setRun (.aborted (.registerOutOfRange r))) := by
  rw [alu_of_select op a b sel s hs] at h
  rcases withReg_next a s t _ h with ⟨ra, ea, h⟩ | ⟨h8, e⟩
  · rcases withReg_next b s t _ h with ⟨rb, eb, h⟩ | ⟨h8, e⟩
    · exact .inl ⟨ra, rb, ea, eb, h⟩
    · exact .inr ⟨b, by simp, h8, e⟩
  · exact .inr ⟨a, by simp, h8, e⟩

/-- `exec` answers a next state only in the ways `Effect` lists. -/
theorem exec_effect (i : Instr) (s t : State) (h : exec i s = .next t) : Effect i s t := by
  cases i with
  | hlt => cases h; exact .hlt s
  | ldi b imm =>
    rcases withReg_next b s t _ h with ⟨r, rfl, -⟩ | ⟨hb, rfl⟩
    · exact .ldi s r imm t (exec_ldi s r imm ▸ h)
    · exact .badRegister _ s b (by simp [Instr.regOperands]) hb
  | prn b =>
    rcases withReg_next b s t _ h with ⟨r, rfl, -⟩ | ⟨hb, rfl⟩
    · exact .prn s r t (exec_prn s r ▸ h)
    · exact .badRegister _ s b (by simp [Instr.regOperands]) hb
  | push b =>
    rcases withReg_next b s t _ h with ⟨r, rfl, -⟩ | ⟨hb, rfl⟩
    · exact .push s r t (exec_push s r ▸ h)
    · exact .badRegister _ s b (by simp [Instr.regOperands]) hb
  | pop b =>
    rcases withReg_next b s t _ h with ⟨r, rfl, -⟩ | ⟨hb, rfl⟩
    · exact .pop s r t (exec_pop s r ▸ h)
    · exact .badRegister _ s b (by simp [Instr.regOperands]) hb
  | jmp b =>
    rcases withReg_next b s t _ h with ⟨r, rfl, hj⟩ | ⟨hb, rfl⟩
    · cases hj; exact .jmp s r
    · exact .badRegister _ s b (by simp [Instr.regOperands]) hb
  | jeq b =>
    rcases withReg_next b s t _ h with ⟨r, rfl, hj⟩ | ⟨hb, rfl⟩
    · split at hj
      · next e => cases hj; exact .jeqTaken s r e
      · next e => exact .jeqFalls s r t (by simpa using e) hj
    · exact .badRegister _ s b (by simp [Instr.regOperands]) hb
  | jne b =>
    rcases withReg_next b s t _ h with ⟨r, rfl, hj⟩ | ⟨hb, rfl⟩
    · split at hj
      · next e => exact .jneFalls s r t e hj
      · next e => cases hj; exact .jneTaken s r (by simpa using e)
    · exact .badRegister _ s b (by simp [Instr.regOperands]) hb
  | add a b =>
    rcases alu_next (opcodeOf .add) a b .add s t rfl h with ⟨ra, rb, rfl, rfl, ha⟩ | ⟨r, hr, h8, rfl⟩
    · exact .add s ra rb t ha
    · exact .badRegister _ s r hr h8
  | mul a b =>
    rcases alu_next (opcodeOf .mul) a b .mul s t rfl h with ⟨ra, rb, rfl, rfl, ha⟩ | ⟨r, hr, h8, rfl⟩
    · exact .mul s ra rb t ha
    · exact .badRegister _ s r hr h8
  | cmp a b =>
    rcases alu_next (opcodeOf .cmp) a b .cmp s t rfl h with ⟨ra, rb, rfl, rfl, ha⟩ | ⟨r, hr, h8, rfl⟩
    · exact .cmp s ra rb t ha
    · exact .badRegister _ s r hr h8

end Sys2Proof.Machine
end

