-- ==== Sys2Proof/Laws/PerInstr.lean ====
section
/-! SUPPORT. The statements made per instruction, one lemma per constructor. -/

namespace Sys2Proof.Laws.EncodedLength

/-- R50: under any opcode assignment that satisfies R55, an instruction's bytes are one opcode byte and as many operand
bytes as bits 7:6 of that byte say. -/
def Statement (i : Instr) : Prop :=
  ∀ om : OpcodeMap, om.Valid → (encode om i).length = 1 + operandCount (om i.mnemonic)

theorem of_instr (i : Instr) : Statement i := fun om hom => by
  rw [encode, List.length_cons, operands_length, hom.2.1, Nat.add_comm]

theorem hlt : Statement .hlt := of_instr _
theorem push (reg : Byte) : Statement (.push reg) := of_instr _
theorem pop (reg : Byte) : Statement (.pop reg) := of_instr _
theorem prn (reg : Byte) : Statement (.prn reg) := of_instr _
theorem jmp (reg : Byte) : Statement (.jmp reg) := of_instr _
theorem jeq (reg : Byte) : Statement (.jeq reg) := of_instr _
theorem jne (reg : Byte) : Statement (.jne reg) := of_instr _
theorem ldi (reg imm : Byte) : Statement (.ldi reg imm) := of_instr _
theorem add (a b : Byte) : Statement (.add a b) := of_instr _
theorem mul (a b : Byte) : Statement (.mul a b) := of_instr _
theorem cmp (a b : Byte) : Statement (.cmp a b) := of_instr _

end Sys2Proof.Laws.EncodedLength
end

