-- ==== Sys2Proof/Laws/Step.lean ====
section
/-! SUPPORT. What fetching and stepping can do: one inversion lemma each, which invariant proofs cite. -/

namespace Sys2Proof.Machine

/-- R70 to R74: the whole of `fetch`. -/
theorem fetch_cases (om : OpcodeMap) (s : State) :
    (s.byteAt s.pc.toNat = om .hlt ∧ fetch om s = .ok .hlt) ∨
    (decodeOpcode om (s.byteAt s.pc.toNat) = none ∧
      fetch om s = .error (.unknownInstruction (s.byteAt s.pc.toNat))) ∨
    (∃ m, m ≠ .hlt ∧ decodeOpcode om (s.byteAt s.pc.toNat) = some m ∧
      ((254 ≤ s.pc.toNat ∧ fetch om s = .error (.memoryOutOfRange 256)) ∨
       (s.pc.toNat + 2 ≤ 255 ∧
        fetch om s = .ok (assemble m (s.byteAt (s.pc.toNat + 1)) (s.byteAt (s.pc.toNat + 2)))))) := by
  by_cases hh : s.byteAt s.pc.toNat = om .hlt
  · exact .inl ⟨hh, by simp [fetch, hh]⟩
  · cases hd : decodeOpcode om (s.byteAt s.pc.toNat) with
    | none => exact .inr (.inl ⟨rfl, by simp [fetch, hh, hd]⟩)
    | some m =>
      refine .inr (.inr ⟨m, ?_, rfl, ?_⟩)
      · rintro rfl
        exact hh (decodeOpcode_some om _ _ hd).symm
      · by_cases h1 : s.pc.toNat + 1 ≤ 255
        · by_cases h2 : s.pc.toNat + 2 ≤ 255
          · refine .inr ⟨h2, ?_⟩
            simp [fetch, hh, hd, memRead_inside s _ h1, memRead_inside s _ h2]
          · refine .inl ⟨by omega, ?_⟩
            have e : s.pc.toNat + 2 = 256 := by omega
            simp [fetch, hh, hd, memRead_inside s _ h1, e, memRead_past]
        · have hlt := s.pc.isLt
          refine .inl ⟨by omega, ?_⟩
          have e : s.pc.toNat + 1 = 256 := by omega
          simp [fetch, hh, hd, e, memRead_past]

/-- R70: a step that answers a next state ran on a running core, and either aborted in fetch or executed what it fetched. -/
theorem stepWith_cases (om : OpcodeMap) (s t : State) (h : stepWith om s = .next t) :
    s.run = .running ∧
    ((∃ e, fetch om s = .error e ∧ t = s.setRun (.aborted e)) ∨
     (∃ i, fetch om s = .ok i ∧ exec i s = .next t)) := by
  unfold stepWith at h
  split at h
  · next hr =>
    refine ⟨hr, ?_⟩
    split at h
    · next i hi => exact .inr ⟨i, hi, h⟩
    · next e he => exact .inl ⟨e, he, (Host.Outcome.next.inj h).symm⟩
  · cases h
  · cases h

theorem stepWith_running (om : OpcodeMap) (s : State) (i : Instr) (hr : s.run = .running)
    (hi : fetch om s = .ok i) : stepWith om s = exec i s := by
  simp [stepWith, hr, hi]

theorem stepWith_abort (om : OpcodeMap) (s : State) (e : AbortReason) (hr : s.run = .running)
    (he : fetch om s = .error e) : stepWith om s = .next (s.setRun (.aborted e)) := by
  simp [stepWith, hr, he, raiseAbort]

theorem stepWith_stopped (om : OpcodeMap) (s : State) (hr : s.run ≠ .running) :
    stepWith om s = .fault .notRunning := by
  unfold stepWith
  split
  · next h => exact absurd h hr
  · rfl
  · rfl

/-- The state with a table word stored where it fetches runs exactly the instruction the decoder reads from that word. -/
theorem step_withFetchWord (s : State) (nbits w : Nat) (i : Instr)
    (hd : decodeTableWord nbits w = some i) :
    step (s.withFetchWord nbits w) = exec i (s.withFetchWord nbits w) := by
  have hpc : (s.withFetchWord nbits w).pc.toNat + 2 ≤ 255 := by
    simp only [State.withFetchWord]
    split
    · assumption
    · decide
  have hb : ∀ k, k < 3 → (s.withFetchWord nbits w).byteAt ((s.withFetchWord nbits w).pc.toNat + k) =
      (tableBytes nbits w).getD k 0 := fun k hk => by
    simp only [State.withFetchWord, State.byteAt, Memory.read_writeBytes]
    have hl : (tableBytes nbits w).length = 3 := rfl
    rw [if_pos ⟨Nat.le_add_right _ _, by omega⟩, Nat.add_sub_cancel_left]
  have h0 := hb 0 (by decide)
  have h1 := hb 1 (by decide)
  have h2 := hb 2 (by decide)
  rw [Nat.add_zero] at h0
  refine stepWith_running opcodeOf _ i rfl ?_
  simp only [decodeTableWord] at hd
  obtain ⟨x, y, z, hxyz⟩ : ∃ x y z, tableBytes nbits w = [x, y, z] := ⟨_, _, _, rfl⟩
  rw [hxyz] at hd h0 h1 h2
  simp only [List.getD_cons_zero, List.getD_cons_succ] at h0 h1 h2
  rcases fetch_cases opcodeOf (s.withFetchWord nbits w) with
    ⟨h, hf⟩ | ⟨h, hf⟩ | ⟨m, -, h, ⟨hp, -⟩ | ⟨-, hf⟩⟩
  · have hh : decodeOpcode opcodeOf x = some .hlt := by rw [← h0, h]; rfl
    simp only [decode, hh, Mnemonic.arity, assemble] at hd
    rw [hf]
    simpa using hd
  · rw [h0] at h
    simp [decode, h] at hd
  · omega
  · rw [h0] at h
    rw [hf, h1, h2]
    cases m <;> simp_all [decode, Mnemonic.arity, assemble]

end Sys2Proof.Machine
end

