-- ==== Sys2Proof/Tests/Slice0.lean ====
section
/-! SUPPORT. The model's own tests. Expected results are those of spec/95_test_vectors.md (the vector is named at each test) or
worked by hand from the rule named; none is the model's own answer. Then one witness per statement that has hypotheses. -/

namespace Sys2Proof.Tests

open Sys2Proof.Machine Sys2Proof.Safety

/-! ### Helpers -/

/-- The reset state with bytes at an address and `pc` there. -/
def placed (addr : Nat) (bytes : List Byte) : State :=
  { State.reset with pc := BitVec.ofNat 8 addr, mem := State.reset.mem.writeBytes addr bytes }

/-- One step answers a next state with a property. -/
def stepMeets (s : State) (p : State → Bool) : Bool :=
  match step s with
  | .next t => p t
  | _ => false

/-! ### Well-formedness: each register operand is checked -/

theorem test_wf_accepts : (Instr.ldi 7 255).WellFormed ∧ (Instr.add 0 7).WellFormed ∧ Instr.hlt.WellFormed := by decide
theorem test_wf_refuses_push : ¬ (Instr.push 8).WellFormed := by decide
theorem test_wf_refuses_pop : ¬ (Instr.pop 255).WellFormed := by decide
theorem test_wf_refuses_prn : ¬ (Instr.prn 8).WellFormed := by decide
theorem test_wf_refuses_jmp : ¬ (Instr.jmp 8).WellFormed := by decide
theorem test_wf_refuses_jeq : ¬ (Instr.jeq 8).WellFormed := by decide
theorem test_wf_refuses_jne : ¬ (Instr.jne 8).WellFormed := by decide
theorem test_wf_refuses_ldi_reg : ¬ (Instr.ldi 8 0).WellFormed := by decide
theorem test_wf_refuses_add_a : ¬ (Instr.add 8 0).WellFormed := by decide
theorem test_wf_refuses_add_b : ¬ (Instr.add 0 8).WellFormed := by decide
theorem test_wf_refuses_mul_a : ¬ (Instr.mul 8 0).WellFormed := by decide
theorem test_wf_refuses_mul_b : ¬ (Instr.mul 0 8).WellFormed := by decide
theorem test_wf_refuses_cmp_a : ¬ (Instr.cmp 9 0).WellFormed := by decide
theorem test_wf_refuses_cmp_b : ¬ (Instr.cmp 0 10).WellFormed := by decide

/-! ### Decoding, from words written out of spec/30_encoding.md R52 and R56 -/

theorem test_decode_hlt : decode opcodeOf [0b00000001, 0x47] = .ok (.hlt, [0x47]) := rfl
theorem test_decode_push : decode opcodeOf [0b01000101, 0b00000011] = .ok (.push 3, []) := rfl
theorem test_decode_pop : decode opcodeOf [0b01000110, 0b11111111] = .ok (.pop 255, []) := rfl
theorem test_decode_prn : decode opcodeOf [0b01000111, 0b00000110] = .ok (.prn 6, []) := rfl
theorem test_decode_jmp : decode opcodeOf [0b01010100, 0b00000111] = .ok (.jmp 7, []) := rfl
theorem test_decode_jeq : decode opcodeOf [0b01010101, 0b00000010] = .ok (.jeq 2, []) := rfl
theorem test_decode_jne : decode opcodeOf [0b01010110, 0b00000011] = .ok (.jne 3, []) := rfl
theorem test_decode_ldi : decode opcodeOf [0b10000010, 0b00000101, 0b11111110] = .ok (.ldi 5 254, []) := rfl
theorem test_decode_add : decode opcodeOf [0b10100000, 0b00000010, 0b00000100] = .ok (.add 2 4, []) := rfl
theorem test_decode_mul : decode opcodeOf [0b10100010, 0b00000000, 0b00000001] = .ok (.mul 0 1, []) := rfl
theorem test_decode_cmp : decode opcodeOf [0b10100111, 0b00001001, 0b00001010] = .ok (.cmp 9 10, []) := rfl
/-- V-D12 to V-D19. -/
theorem test_decode_unknown : ([0x00, 0xFF, 0x02, 0xC1, 0x41, 0xA1, 0x57, 0x87] : List Byte).all
    (fun op => decodeOpcode opcodeOf op == none) = true := by decide
theorem test_decode_truncated : decode opcodeOf [0xA0, 0x00] = .error .truncated := rfl
/-- The table numbers the first byte in bits 7:0 and later bytes above it. -/
theorem test_table_word_ldi : decodeTableWord 24 0x080082 = some (.ldi 0 8) := rfl
theorem test_table_word_pads_with_zeros : decodeTableWord 8 0xFF82 = some (.ldi 0 0) := rfl
theorem test_table_word_unknown : decodeTableWord 8 0x00 = none := rfl

/-! ### One step of each instruction -/

/-- V-A2. -/
theorem test_add_wraps : stepMeets (((placed 0 [0xA0, 0, 1]).setReg 0 200).setReg 1 100)
    (fun t => t.reg 0 == 44 && t.reg 1 == 100 && t.pc == 3 && t.fl == 0) = true := by decide
/-- V-A20. -/
theorem test_add_bad_register : stepMeets (placed 0 [0xA0, 0, 8])
    (fun t => t.run == .aborted (.registerOutOfRange 8) && t.pc == 0) = true := by decide
/-- V-A9. -/
theorem test_mul_keeps_low_byte : stepMeets (((placed 0 [0xA2, 0, 1]).setReg 0 255).setReg 1 255)
    (fun t => t.reg 0 == 1 && t.reg 1 == 255) = true := by decide
/-- V-A12. -/
theorem test_mul_squares : stepMeets ((placed 0 [0xA2, 3, 3]).setReg 3 15) (fun t => t.reg 3 == 225) = true := by decide
/-- V-A19. -/
theorem test_cmp_overwrites : stepMeets ((((placed 0 [0xA7, 0, 1]).setReg 0 3).setReg 1 7).setFl 1)
    (fun t => t.fl == 0b010 && t.reg 0 == 3 && t.pc == 3) = true := by decide
/-- V-A17. -/
theorem test_cmp_unsigned : stepMeets (((placed 0 [0xA7, 0, 1]).setReg 0 128).setReg 1 127)
    (fun t => t.fl == 0b100) = true := by decide
/-- V-L8. -/
theorem test_ldi_immediate_unchecked : stepMeets (placed 0 [0x82, 0, 9])
    (fun t => t.reg 0 == 9 && t.pc == 3 && t.run == .running) = true := by decide
/-- V-X5. -/
theorem test_ldi_at_253 : stepMeets (placed 253 [0x82, 1, 7])
    (fun t => t.reg 1 == 7 && t.pc == 253 && t.run == .aborted (.memoryOutOfRange 256)) = true := by decide
/-- V-X8. -/
theorem test_prn_at_253 : stepMeets ((placed 253 [0x47, 0]).setReg 0 5)
    (fun t => t.out == [5] && t.pc == 255 && t.run == .running) = true := by decide
/-- V-X9. -/
theorem test_prn_at_254_fetch_aborts : stepMeets (placed 254 [0x47, 9])
    (fun t => t.run == .aborted (.memoryOutOfRange 256) && t.out == [] && t.pc == 254) = true := by decide
/-- V-S1. -/
theorem test_push_wraps_sp : stepMeets ((placed 0 [0x45, 0]).setReg 0 0xAA)
    (fun t => t.reg 7 == 255 && t.byteAt 255 == 0xAA && t.pc == 2) = true := by decide
/-- V-S6. -/
theorem test_push_r7 : stepMeets ((placed 0 [0x45, 7]).setReg 7 0x10)
    (fun t => t.reg 7 == 0x0F && t.byteAt 0x0F == 0x0F) = true := by decide
/-- V-S4. -/
theorem test_pop_wraps_sp : stepMeets { (placed 0 [0x46, 0]).setReg 7 255 with mem := [(0, 0x46), (255, 9)] }
    (fun t => t.reg 0 == 9 && t.reg 7 == 0 && t.byteAt 255 == 9 && t.pc == 2) = true := by decide
/-- V-S7. -/
theorem test_pop_r7 : stepMeets { (placed 0 [0x46, 7]).setReg 7 0xF0 with mem := [(0, 0x46), (1, 7), (0xF0, 0x20)] }
    (fun t => t.reg 7 == 0x21 && t.pc == 2) = true := by decide
/-- V-J1. -/
theorem test_jmp : stepMeets ((placed 20 [0x54, 3]).setReg 3 12) (fun t => t.pc == 12 && t.fl == 0) = true := by decide
/-- V-X11. -/
theorem test_jmp_at_253 : stepMeets (placed 253 [0x54, 0]) (fun t => t.pc == 0 && t.run == .running) = true := by decide
/-- V-J2. -/
theorem test_jeq_taken : stepMeets (((placed 20 [0x55, 3]).setReg 3 12).setFl 0b001)
    (fun t => t.pc == 12 && t.fl == 0b001) = true := by decide
/-- V-J9. -/
theorem test_jeq_checks_untaken_register : stepMeets ((placed 20 [0x55, 8]).setFl 0b100)
    (fun t => t.pc == 20 && t.run == .aborted (.registerOutOfRange 8)) = true := by decide
/-- V-J5. -/
theorem test_jne_before_any_cmp : stepMeets ((placed 20 [0x56, 3]).setReg 3 12) (fun t => t.pc == 12) = true := by decide
/-- V-J6. -/
theorem test_jne_falls_through : stepMeets (((placed 20 [0x56, 3]).setReg 3 12).setFl 0b001)
    (fun t => t.pc == 22) = true := by decide
/-- V-H2. -/
theorem test_hlt_at_255 : stepMeets (placed 255 [0x01]) (fun t => t.run == .halted && t.pc == 255) = true := by decide
/-- V-H4. -/
theorem test_halted_takes_no_step : step (State.reset.setRun .halted) = .fault .notRunning := rfl
/-- V-X1. -/
theorem test_empty_image_aborts : stepMeets State.reset
    (fun t => t.run == .aborted (.unknownInstruction 0x00) && t.pc == 0) = true := by decide
/-- V-X2. -/
theorem test_unknown_precedes_operand_fetch : stepMeets (placed 254 [0xFF])
    (fun t => t.run == .aborted (.unknownInstruction 0xFF) && t.pc == 254) = true := by decide
/-- V-r1. -/
theorem test_boot_image : boot [0x82, 0x00, 0x08] =
    .next { State.reset with mem := [(0, 0x82), (2, 0x08)] } := rfl
/-- R32: writing zero removes the entry, so that equal memories are equal data. -/
theorem test_write_zero_is_canonical : Memory.write [(3, 7), (9, 1)] 9 0 = [(3, 7)] := by decide
/-- The table word at `pc` 255 needs a place where all three addresses exist. -/
theorem test_fetch_word_moves_pc_off_the_top :
    ({ State.reset with pc := 255, run := .halted }.withFetchWord 24 0x080082) =
      { State.reset with mem := [(0, 0x82), (2, 0x08)] } := by decide

/-! ### Witnesses: a concrete input meets the hypotheses of each statement -/

theorem witness_valid_map : opcodeOf.Valid := opcodeOf_valid
theorem witness_unknown_byte : ∀ m, (0xFF : Byte) ≠ opcodeOf m := by intro m; cases m <;> decide
theorem witness_length : decode opcodeOf [0xA7, 1, 2, 3] = .ok (.cmp 1 2, [3]) ∧ decode opcodeOf [0x01] = .ok (.hlt, []) :=
  ⟨rfl, rfl⟩
theorem witness_three_operand_bits : operandCount 0xC0 = 3 ∧ operandCount 0xFF = 3 := by decide
theorem witness_low_bits_alike : (0x41 : Byte).toNat % 64 = (opcodeOf .hlt).toNat % 64 ∧ (0x41 : Byte) ≠ opcodeOf .hlt := by
  decide
theorem witness_not_ldi : ∀ reg imm, Instr.jmp 3 ≠ .ldi reg imm := by intro _ _ h; cases h
/-- Both sides of the disjunction: HLT at 255, and ADD at 253. -/
theorem witness_step_runs_decoded :
    ((placed 255 [0x01]).run = .running ∧ decode opcodeOf [(placed 255 [0x01]).byteAt 255, (placed 255 [0x01]).byteAt 256,
      (placed 255 [0x01]).byteAt 257] = .ok (.hlt, [0, 0])) ∧
    ((placed 253 [0xA0, 1, 2]).run = .running ∧ decode opcodeOf [(placed 253 [0xA0, 1, 2]).byteAt 253,
      (placed 253 [0xA0, 1, 2]).byteAt 254, (placed 253 [0xA0, 1, 2]).byteAt 255] = .ok (.add 1 2, []) ∧
      (placed 253 [0xA0, 1, 2]).pc.toNat + 2 ≤ 255) := ⟨⟨rfl, rfl⟩, rfl, rfl, by decide⟩
theorem witness_not_running : (State.reset.setRun .halted).run ≠ .running ∧ State.reset.run = .running := by decide
theorem witness_halt_test : (placed 254 [0x01]).run = .running ∧
    (placed 254 [0x01]).byteAt (placed 254 [0x01]).pc.toNat = opcodeOf .hlt := by decide
theorem witness_unknown_opcode : (placed 255 [0x57]).run = .running ∧
    ∀ m, (placed 255 [0x57]).byteAt (placed 255 [0x57]).pc.toNat ≠ opcodeOf m :=
  ⟨rfl, fun m => by cases m <;> decide⟩
/-- Both clauses, at 254 and at 253. -/
theorem witness_operand_fetch :
    ((placed 254 [0x54, 0]).run = .running ∧ decodeOpcode opcodeOf ((placed 254 [0x54, 0]).byteAt 254) = some .jmp ∧
      254 ≤ (placed 254 [0x54, 0]).pc.toNat) ∧
    ((placed 253 [0x54, 0]).run = .running ∧ decodeOpcode opcodeOf ((placed 253 [0x54, 0]).byteAt 253) = some .jmp ∧
      (placed 253 [0x54, 0]).pc.toNat ≤ 253) := by decide
/-- Each outcome occurs: the core runs on, it halts, it aborts with nothing else changed, it aborts at 253 with its effect. -/
theorem witness_outcomes : stepMeets (placed 0 [0x82, 0, 1]) (fun t => t.run == .running) = true ∧
    stepMeets (placed 0 [0x01]) (fun t => t == (placed 0 [0x01]).setRun .halted) = true ∧
    stepMeets State.reset (fun t => t == State.reset.setRun (.aborted (.unknownInstruction 0))) = true ∧
    stepMeets (placed 253 [0xA7, 0, 1]) (fun t => t.run == .aborted (.memoryOutOfRange 256) && t.fl == 1) = true := by decide
/-- A step whose core runs on and one whose core stops. -/
theorem witness_pc_moves : (∃ t, step (placed 252 [0x82, 1, 7]) = .next t ∧ t.run = .running) ∧
    (∃ t, step (placed 253 [0x82, 1, 7]) = .next t ∧ t.run ≠ .running) :=
  ⟨⟨_, rfl, by decide⟩, ⟨_, rfl, by decide⟩⟩
/-- The first operand, and the second after a good first. -/
theorem witness_bad_register : (Instr.jne 8).regOperands.find? (fun b => 7 < b.toNat) = some 8 ∧
    (Instr.cmp 7 255).regOperands.find? (fun b => 7 < b.toNat) = some 255 ∧
    (Instr.add 9 10).regOperands.find? (fun b => 7 < b.toNat) = some 9 := by decide
theorem witness_three_byte_room : (placed 252 []).pc.toNat + 3 ≤ 255 := by decide
theorem witness_two_byte_room : (placed 253 []).pc.toNat + 2 ≤ 255 := by decide
/-- Each of the three outcomes of a comparison. -/
theorem witness_comparisons : let s := ((placed 252 []).setReg 0 0).setReg 1 255
    s.pc.toNat + 3 ≤ 255 ∧ (s.reg 0).toNat = (s.reg 2).toNat ∧ (s.reg 0).toNat < (s.reg 1).toNat ∧
      (s.reg 1).toNat > (s.reg 0).toNat := by decide
theorem witness_flag_e : (State.reset.setFl 1).fl.getLsbD 0 = true ∧ (State.reset.setFl 4).fl.getLsbD 0 = false := by decide
/-- The three kinds of target of `JumpsReplaceThePcAndNothingElse`: HLT at 255, an unknown byte, a known one at 253. -/
theorem witness_jump_targets :
    ((placed 255 [0x01]).setReg 0 255).byteAt 255 = opcodeOf .hlt ∧
    (∀ m, ((placed 254 [0xFF]).setReg 0 254).byteAt 254 ≠ opcodeOf m) ∧
    decodeOpcode opcodeOf (((placed 253 [0x47]).setReg 0 253).byteAt 253) = some .prn :=
  ⟨by decide, fun m => by cases m <;> decide, by decide⟩
/-- Each of the four instructions, at 253 and above. -/
theorem witness_advance_past_top : 253 ≤ (placed 253 []).pc.toNat ∧ 253 ≤ (placed 255 []).pc.toNat ∧
    (Instr.ldi 7 8).WellFormed ∧ (Instr.add 7 0).WellFormed ∧ (Instr.mul 0 7).WellFormed ∧ (Instr.cmp 7 7).WellFormed := by
  decide
theorem witness_foreign_opcode : opcodeOf .ldi ≠ opcodeOf .add ∧ opcodeOf .ldi ≠ opcodeOf .mul ∧
    opcodeOf .ldi ≠ opcodeOf .cmp := by decide
/-- The second part speaks of a state that already holds the reason. -/
theorem witness_unsupported_kept : ∃ t, exec (.prn 0) (State.reset.setRun (.aborted (.unsupportedALUOperation 0))) = .next t ∧
    t.run = .aborted (.unsupportedALUOperation 0) := ⟨_, rfl, rfl⟩
theorem witness_frame_ldi_add_mul : (∃ t, exec (.ldi 8 1) State.reset = .next t) ∧ (∃ t, exec (.add 0 1) State.reset = .next t) ∧
    (∃ t, exec (.mul 7 255) State.reset = .next t) := ⟨⟨_, rfl⟩, ⟨_, rfl⟩, ⟨_, rfl⟩⟩
theorem witness_frame_others : (∃ t, exec (.cmp 0 1) State.reset = .next t) ∧ (∃ t, exec (.prn 8) State.reset = .next t) ∧
    (∃ t, exec (.jmp 0) State.reset = .next t) ∧ (∃ t, exec (.jeq 0) State.reset = .next t) ∧
    (∃ t, exec (.jne 0) State.reset = .next t) ∧ (∃ t, exec .hlt State.reset = .next t) :=
  ⟨⟨_, rfl⟩, ⟨_, rfl⟩, ⟨_, rfl⟩, ⟨_, rfl⟩, ⟨_, rfl⟩, ⟨_, rfl⟩⟩
theorem witness_frame_push : (∃ t, exec (.push 7) State.reset = .next t) ∧ pushAddr State.reset = 255 := ⟨⟨_, rfl⟩, by decide⟩
theorem witness_frame_pop : ∃ t, exec (.pop 7) State.reset = .next t := ⟨_, rfl⟩
theorem witness_flags_change : ∃ t, step (placed 0 [0xA7, 0, 1]) = .next t ∧ t.fl ≠ (placed 0 [0xA7, 0, 1]).fl :=
  ⟨_, rfl, by decide⟩
theorem witness_memory_changes : ∃ t, step ((placed 0 [0x45, 0]).setReg 0 5) = .next t ∧
    t.mem ≠ ((placed 0 [0x45, 0]).setReg 0 5).mem := ⟨_, rfl, by decide⟩
theorem witness_output_changes : ∃ t, step (placed 253 [0x47, 7]) = .next t ∧ t.out ≠ (placed 253 [0x47, 7]).out :=
  ⟨_, rfl, by decide⟩
theorem witness_register_changes : (∃ t, step (placed 0 [0x82, 3, 1]) = .next t ∧ t.reg 3 ≠ (placed 0 [0x82, 3, 1]).reg 3) ∧
    (∃ t, step (placed 0 [0x45, 0]) = .next t ∧ t.reg 7 ≠ (placed 0 [0x45, 0]).reg 7) := ⟨⟨_, rfl, by decide⟩, ⟨_, rfl, by decide⟩⟩
theorem witness_output_step : ∃ t, step (placed 0 [0x47, 0]) = .next t := ⟨_, rfl⟩
theorem witness_flag_noninterference : (0b110 : Byte).getLsbD 0 = (placed 0 [0x56, 0]).fl.getLsbD 0 ∧
    ∃ t, step (placed 0 [0x56, 0]) = .next t := ⟨by decide, _, rfl⟩
/-- A PUSH of HLT, and of an unknown byte, onto the next instruction. -/
theorem witness_push_onto_next :
    (let s := ((placed 0 [0x45, 0, 0x47]).setReg 7 3).setReg 0 0x01
     s.run = .running ∧ fetch opcodeOf s = .ok (.push (regByte 0)) ∧ (0 : Fin 8) ≠ 7 ∧ pushAddr s = s.pc.toNat + 2 ∧
      s.reg 0 = opcodeOf .hlt) ∧
    (let s := ((placed 0 [0x45, 0, 0x47]).setReg 7 3).setReg 0 0xFF
     s.run = .running ∧ fetch opcodeOf s = .ok (.push (regByte 0)) ∧ (0 : Fin 8) ≠ 7 ∧ pushAddr s = s.pc.toNat + 2 ∧
      decodeOpcode opcodeOf (s.reg 0) = none) :=
  ⟨⟨rfl, rfl, by decide, by decide, by decide⟩, rfl, rfl, by decide, by decide, by decide⟩
theorem witness_push_pop : (3 : Fin 8) ≠ 7 ∧ (4 : Fin 8) ≠ 7 ∧ (placed 251 []).pc.toNat + 4 ≤ 255 := by decide
theorem witness_five_byte_room : (placed 250 []).pc.toNat + 5 ≤ 255 := by decide
theorem witness_addresses : (255 : Nat) < 256 ∧ 256 ≤ (256 : Nat) := by decide
theorem witness_canonical_memory : Memory.wf [(0, 0x82), (255, 1)] ∧ ¬ Memory.wf [(0, 0)] ∧ ¬ Memory.wf [(9, 1), (3, 1)] ∧
    ¬ Memory.wf [(256, 1)] := by decide
theorem witness_images : ([] : List Byte).length ≤ 256 ∧ (List.replicate 256 (1 : Byte)).length ≤ 256 ∧
    256 < (List.replicate 257 (1 : Byte)).length :=
  ⟨by decide, by rw [List.length_replicate], by rw [List.length_replicate]; decide⟩
theorem witness_invariant_step : Inv (placed 0 [0x45, 1]) ∧ ∃ t, step (placed 0 [0x45, 1]) = .next t :=
  ⟨⟨by decide, .inl rfl, trivial⟩, _, rfl⟩
theorem witness_reachable : ∃ t, Reachable t ∧ t.run = .halted :=
  ⟨_, .step _ _ (.boot [0x01] _ rfl) rfl, rfl⟩

end Sys2Proof.Tests
end

section
/-! PROOFS. How a step moves the program counter (spec/10_state.md R16). -/

namespace Sys2Proof.Machine

/-- R16: the value an instruction that completes gives `pc`, between the states before and after it. -/
def PcRule (i : Instr) (s t : State) : Prop :=
  match i with
  | .ldi _ _ | .add _ _ | .mul _ _ | .cmp _ _ => t.pc.toNat = s.pc.toNat + 3
  | .prn _ | .push _ | .pop _ => t.pc.toNat = s.pc.toNat + 2
  | .jmp r => ∃ k, r = regByte k ∧ t.pc = s.reg k
  | .jeq r => if equalSet s.fl then ∃ k, r = regByte k ∧ t.pc = s.reg k else t.pc.toNat = s.pc.toNat + 2
  | .jne r => if equalSet s.fl then t.pc.toNat = s.pc.toNat + 2 else ∃ k, r = regByte k ∧ t.pc = s.reg k
  | .hlt => False

/-- R76: an advance that leaves the core running has moved `pc` by its width. -/
theorem advancePc_pc_of_running {w : Nat} {u t : State} (h : advancePc w u = .next t)
    (ht : t.run = .running) : t.pc.toNat = u.pc.toNat + w := by
  rcases advancePc_cases w u t h with ⟨hw, rfl⟩ | ⟨-, rfl⟩
  · exact toNat_advanced u.pc w hw
  · simp at ht

/-- R76: an advance that stops a running core has left `pc` alone. -/
theorem advancePc_pc_of_stopped {w : Nat} {u t : State} (h : advancePc w u = .next t)
    (hu : u.run = .running) (ht : t.run ≠ .running) : t.pc = u.pc := by
  rcases advancePc_cases w u t h with ⟨-, rfl⟩ | ⟨-, rfl⟩
  · exact absurd hu ht
  · rfl

theorem pcRule_of_effect {i : Instr} {s t : State} (h : Effect i s t) (ht : t.run = .running) :
    PcRule i s t := by
  cases h with
  | badRegister | hlt => simp at ht
  | ldi | add | mul | cmp | prn | push | pop => next hadv => exact (advancePc_pc_of_running hadv ht :)
  | jmp _ r => exact ⟨r, rfl, rfl⟩
  | jeqTaken _ r he => exact (if_pos he).mpr ⟨r, rfl, rfl⟩
  | jneTaken _ r he => exact (if_neg (by simp [he])).mpr ⟨r, rfl, rfl⟩
  | jeqFalls _ _ _ he hadv => exact (if_neg (by simp [he])).mpr (advancePc_pc_of_running hadv ht)
  | jneFalls _ _ _ he hadv => exact (if_pos he).mpr (advancePc_pc_of_running hadv ht)

/-- R16, R110: halting, a bad register operand and an advance past 255 all leave `pc` on the instruction; a transfer
does not stop the core. -/
theorem pc_of_effect_of_stopped {i : Instr} {s t : State} (h : Effect i s t) (hs : s.run = .running)
    (ht : t.run ≠ .running) : t.pc = s.pc := by
  cases h with
  | badRegister | hlt => rfl
  | ldi | add | mul | cmp | prn | push | pop | jeqFalls | jneFalls =>
    next hadv => exact (advancePc_pc_of_stopped hadv hs ht :)
  | jmp | jeqTaken | jneTaken => exact absurd hs ht

end Sys2Proof.Machine

open Sys2Proof Sys2Proof.Machine

/-- Settles O14: a step aborts in fetch, with `pc` kept, or executes an instruction, whose `Effect` decides `pc`. -/
theorem programCounterMovesOnlyAsTheInstructionSays :
    Obligations.ProgramCounterMovesOnlyAsTheInstructionSays := by
  intro s t h
  obtain ⟨hs, ⟨e, -, rfl⟩ | ⟨i, hi, hx⟩⟩ := stepWith_cases opcodeOf s t h
  · exact ⟨fun _ => rfl, fun ht => by simp at ht⟩
  · have heff := exec_effect i s t hx
    refine ⟨pc_of_effect_of_stopped heff hs, fun ht => ⟨i, hi, ?_⟩⟩
    exact pcRule_of_effect heff ht
end

section
/-! PROOFS. Decoding reads back what encoding writes, and nothing else decodes (spec/30_encoding.md R50, R54, R57). -/

namespace Sys2Proof

theorem Mnemonic.arity_le_two (m : Mnemonic) : m.arity ≤ 2 := by
  cases m <;> decide

theorem operandCount_opcode {om : OpcodeMap} (hom : om.Valid) (m : Mnemonic) :
    operandCount (om m) = m.arity := by
  obtain ⟨-, hcount, -⟩ := hom
  exact hcount m

/-- R55 (a), R57: the opcode bytes are distinct, so the table's search for one of them stops at its own row. -/
theorem decodeOpcode_opcode {om : OpcodeMap} (hom : om.Valid) (m : Mnemonic) :
    decodeOpcode om (om m) = some m := by
  obtain ⟨hinj, -, -⟩ := hom
  cases hd : decodeOpcode om (om m) with
  | none => exact absurd rfl ((decodeOpcode_none om (om m)).mp hd m)
  | some n => rw [hinj n m (decodeOpcode_some om (om m) n hd)]

/-- R52: an assembled instruction has the operand bytes it was assembled from, and no byte after them. -/
theorem operands_assemble (m : Mnemonic) (rest : List Byte) (h : m.arity ≤ rest.length) :
    (assemble m (rest.getD 0 0) (rest.getD 1 0)).operands = rest.take m.arity := by
  cases m with
  | hlt => rfl
  | push | pop | prn | jmp | jeq | jne => match rest, h with | _ :: _, _ => rfl
  | ldi | add | mul | cmp => match rest, h with | _ :: _ :: _, _ => rfl

/-- R50, R57: bytes that decode are the encoding of what they decode to, then the bytes left over. -/
theorem eq_encode_append_of_decode {om : OpcodeMap} {op : Byte} {rest after : List Byte} {i : Instr}
    (h : decode om (op :: rest) = .ok (i, after)) : op :: rest = encode om i ++ after := by
  cases hd : decodeOpcode om op with
  | none => simp [decode, hd] at h
  | some m =>
    by_cases hlen : rest.length < m.arity
    · simp [decode, hd, hlen] at h
    · simp only [decode, hd, hlen, if_false, Except.ok.injEq, Prod.mk.injEq] at h
      obtain ⟨rfl, rfl⟩ := h
      rw [encode, assemble_mnemonic, operands_assemble m rest (Nat.le_of_not_lt hlen),
        decodeOpcode_some om op m hd, List.cons_append, List.take_append_drop]

/-- R50, R57: an encoded instruction decodes to itself, whatever bytes follow it. -/
theorem decode_encode_append {om : OpcodeMap} (hom : om.Valid) (i : Instr) (rest : List Byte) :
    decode om (encode om i ++ rest) = .ok (i, rest) := by
  have hlen : ¬ (i.operands ++ rest).length < i.mnemonic.arity := by
    rw [List.length_append, operands_length]
    omega
  have hdrop : (i.operands ++ rest).drop i.mnemonic.arity = rest :=
    List.drop_left' (operands_length i)
  simp only [encode, List.cons_append, decode, decodeOpcode_opcode hom, hlen, if_false,
    assemble_operands, hdrop]

/-- R54: apart from LDI's immediate, every operand byte is a register index. -/
theorem operands_eq_regOperands (i : Instr) (h : ∀ reg imm, i ≠ .ldi reg imm) :
    i.operands = i.regOperands := by
  cases i with
  | ldi reg imm => exact absurd rfl (h reg imm)
  | hlt | push | pop | prn | jmp | jeq | jne | add | mul | cmp => rfl

end Sys2Proof

open Sys2Proof Sys2Proof.Machine

/-- Settles O1: each row of the table by `decodeOpcode_opcode`, the bytes outside it by `decodeOpcode_none`. -/
theorem opcodeDecodingIsTheClosedTable : Obligations.OpcodeDecodingIsTheClosedTable := by
  intro om hom
  have row (m : Mnemonic) : decodeOpcode om (om m) = some m ∧ operandCount (om m) = m.arity :=
    ⟨decodeOpcode_opcode hom m, operandCount_opcode hom m⟩
  have unknown (op : Byte) (h : ∀ m, op ≠ om m) : decodeOpcode om op = none :=
    (decodeOpcode_none om op).mpr fun m => (h m).symm
  exact ⟨row .hlt, row .push, row .pop, row .prn, row .jmp, row .jeq, row .jne, row .ldi, row .add,
    row .mul, row .cmp, unknown⟩

/-- Settles O2: the bytes are the instruction's encoding and the rest, and the opcode's bits 7:6 give the encoding's length. -/
theorem instructionLengthIsOnePlusTopTwoBits : Obligations.InstructionLengthIsOnePlusTopTwoBits := by
  intro om op rest i after hom h
  have hbytes : op :: rest = encode om i ++ after := eq_encode_append_of_decode h
  obtain rfl : op = om i.mnemonic := (List.cons.inj hbytes).1
  have hlen := Laws.EncodedLength.of_instr i om hom
  refine ⟨?_, hlen, ?_, ?_⟩
  · exact operandCount_opcode hom i.mnemonic ▸ i.mnemonic.arity_le_two
  · rw [hbytes, List.take_left' hlen]
  · rw [hbytes, List.drop_left' hlen]

/-- Settles O7: LDI's bytes are its encoding; its destination then holds the byte itself. -/
theorem ldiImmediateIsTheWholeSecondOperandByte :
    Obligations.LdiImmediateIsTheWholeSecondOperandByte := by
  refine ⟨fun om reg imm hom => ?_, fun s k imm hpc => ?_, operands_eq_regOperands⟩
  · exact decode_encode_append hom (.ldi reg imm) []
  · refine ⟨_, (exec_ldi s k imm).trans (advancePc_inside 3 (s.setReg k imm) hpc), ?_⟩
    rw [State.reg_setPc, State.reg_setReg, if_pos rfl]
end

section
/-! PROOFS. The two directions between bytes and instructions, and the bytes that are no opcode (spec/30_encoding.md). -/

namespace Sys2Proof

/-- R51, R55 (b): no opcode byte has 0b11 in bits 7:6. -/
theorem decodeOpcode_of_three_operands {om : OpcodeMap} (hom : om.Valid) (op : Byte)
    (h : operandCount op = 3) : decodeOpcode om op = none := by
  refine (decodeOpcode_none om op).mpr fun m hm => ?_
  have hcount : m.arity = 3 := by rw [← operandCount_opcode hom m, hm, h]
  have := m.arity_le_two
  omega

/-- R56: the adopted opcode values differ in their low six bits. -/
theorem opcodeOf_low_bits_injective (m n : Mnemonic)
    (h : (opcodeOf m).toNat % 64 = (opcodeOf n).toNat % 64) : m = n := by
  revert h
  cases m <;> cases n <;> decide

end Sys2Proof

open Sys2Proof Sys2Proof.Machine

/-- Settles O3: `decode_encode_append`, which every assignment of R55 has, and the adopted assignment is one. -/
theorem decodingAnEncodedInstructionReturnsIt :
    Obligations.DecodingAnEncodedInstructionReturnsIt :=
  ⟨fun _ i rest hom => decode_encode_append hom i rest, opcodeOf_valid⟩

/-- Settles O4: the empty list decodes to nothing; any other is `eq_encode_append_of_decode`'s. -/
theorem decodedBytesAreTheEncoding : Obligations.DecodedBytesAreTheEncoding := by
  intro om bytes i after _ h
  cases bytes with
  | nil => cases h
  | cons op rest => exact eq_encode_append_of_decode h

/-- Settles O5: the decoder evaluated on each word. -/
theorem writtenOutWordsDecode : Obligations.WrittenOutWordsDecode :=
  ⟨rfl, rfl, rfl, rfl, rfl, rfl, rfl⟩

/-- Settles O6: bits 7:6 alone rule out 64 bytes, the low six bits name the only candidate, and the count is evaluated. -/
theorem twoHundredFortyFiveOpcodesAreUnknown : Obligations.TwoHundredFortyFiveOpcodesAreUnknown := by
  refine ⟨decodeOpcode_of_three_operands opcodeOf_valid, rfl, fun op m hlow hne => ?_, by decide +kernel⟩
  refine (decodeOpcode_none opcodeOf op).mpr fun n hn => hne ?_
  subst hn
  rw [opcodeOf_low_bits_injective n m hlow]
end

section
/-! PROOFS. What fetching can answer, and what a step can change, field by field; the later proofs cite these. -/

namespace Sys2Proof.Machine

/-! ### Fetch -/

/-- R57, R72: the table's search tests HLT first, so HLT's byte decodes to HLT under any assignment. -/
theorem decodeOpcode_hlt (om : OpcodeMap) : decodeOpcode om (om .hlt) = some .hlt := by
  simp [decodeOpcode, Mnemonic.all]

/-- R72. -/
theorem fetch_hlt {om : OpcodeMap} {s : State} (h : s.byteAt s.pc.toNat = om .hlt) :
    fetch om s = .ok .hlt := by
  simp [fetch, h]

/-- R73. -/
theorem fetch_unknown {om : OpcodeMap} {s : State}
    (h : decodeOpcode om (s.byteAt s.pc.toNat) = none) :
    fetch om s = .error (.unknownInstruction (s.byteAt s.pc.toNat)) := by
  have hh : s.byteAt s.pc.toNat ≠ om .hlt := ((decodeOpcode_none om _).mp h .hlt).symm
  simp [fetch, hh, h]

/-- R74: a known opcode other than HLT needs both operand bytes. -/
theorem fetch_known {om : OpcodeMap} {s : State} {m : Mnemonic}
    (h : decodeOpcode om (s.byteAt s.pc.toNat) = some m) (hm : m ≠ .hlt) :
    (254 ≤ s.pc.toNat → fetch om s = .error (.memoryOutOfRange 256)) ∧
    (s.pc.toNat + 2 ≤ 255 →
      fetch om s = .ok (assemble m (s.byteAt (s.pc.toNat + 1)) (s.byteAt (s.pc.toNat + 2)))) := by
  rcases fetch_cases om s with ⟨hh, -⟩ | ⟨hu, -⟩ | ⟨n, -, hn, hf⟩
  · rw [hh, decodeOpcode_hlt] at h
    exact absurd (Option.some.inj h).symm hm
  · rw [hu] at h
    cases h
  · obtain rfl : n = m := Option.some.inj (hn.symm.trans h)
    rcases hf with ⟨hpc, hf⟩ | ⟨hpc, hf⟩
    · exact ⟨fun _ => hf, fun _ => by omega⟩
    · exact ⟨fun _ => by omega, fun _ => hf⟩

/-- R70 to R74: what fetch hands to `exec` is HLT, or was assembled from three bytes in range. -/
theorem fetch_ok {om : OpcodeMap} {s : State} {i : Instr} (h : fetch om s = .ok i) :
    (i = .hlt ∧ s.byteAt s.pc.toNat = om .hlt) ∨
    (s.pc.toNat + 2 ≤ 255 ∧
      ∃ m, m ≠ .hlt ∧ i = assemble m (s.byteAt (s.pc.toNat + 1)) (s.byteAt (s.pc.toNat + 2))) := by
  rcases fetch_cases om s with ⟨hb, hf⟩ | ⟨-, hf⟩ | ⟨m, hm, -, ⟨-, hf⟩ | ⟨hpc, hf⟩⟩
  · exact .inl ⟨(Except.ok.inj (hf.symm.trans h)).symm, hb⟩
  · cases hf.symm.trans h
  · cases hf.symm.trans h
  · exact .inr ⟨hpc, m, hm, (Except.ok.inj (hf.symm.trans h)).symm⟩

/-- R73, R74: the two aborts of fetch. -/
theorem fetch_error {om : OpcodeMap} {s : State} {e : AbortReason} (h : fetch om s = .error e) :
    (e = .unknownInstruction (s.byteAt s.pc.toNat) ∧ decodeOpcode om (s.byteAt s.pc.toNat) = none) ∨
    (e = .memoryOutOfRange 256 ∧ 254 ≤ s.pc.toNat) := by
  rcases fetch_cases om s with ⟨-, hf⟩ | ⟨hd, hf⟩ | ⟨m, -, -, ⟨hpc, hf⟩ | ⟨-, hf⟩⟩
  · cases hf.symm.trans h
  · exact .inl ⟨(Except.error.inj (hf.symm.trans h)).symm, hd⟩
  · exact .inr ⟨(Except.error.inj (hf.symm.trans h)).symm, hpc⟩
  · cases hf.symm.trans h

/-- R52: a register operand is one of the bytes the instruction was assembled from. -/
theorem mem_regOperands_assemble {m : Mnemonic} {a b r : Byte} (h : r ∈ (assemble m a b).regOperands) :
    r = a ∨ r = b := by
  cases m with
  | hlt => cases h
  | push | pop | prn | jmp | jeq | jne | ldi => exact .inl (List.mem_singleton.mp h)
  | add | mul | cmp => simpa [assemble, Instr.regOperands] using h

/-! ### The sequential advance, field by field -/

section
variable {w : Nat} {u t : State} (h : advancePc w u = .next t)
include h

theorem advancePc_regs : t.regs = u.regs := by
  rcases advancePc_cases w u t h with ⟨-, rfl⟩ | ⟨-, rfl⟩ <;> rfl

theorem advancePc_fl : t.fl = u.fl := by
  rcases advancePc_cases w u t h with ⟨-, rfl⟩ | ⟨-, rfl⟩ <;> rfl

theorem advancePc_mem : t.mem = u.mem := by
  rcases advancePc_cases w u t h with ⟨-, rfl⟩ | ⟨-, rfl⟩ <;> rfl

theorem advancePc_out : t.out = u.out := by
  rcases advancePc_cases w u t h with ⟨-, rfl⟩ | ⟨-, rfl⟩ <;> rfl

theorem advancePc_reg (k : Fin 8) : t.reg k = u.reg k :=
  congrArg (·.get k) (advancePc_regs h)

end

/-- R76: an advance that leaves `run` unlike before has aborted on an address past 255. -/
theorem advancePc_run {w : Nat} {u t : State} (h : advancePc w u = .next t) :
    t.run = u.run ∨ (255 < u.pc.toNat + w ∧ t = u.setRun (.aborted (.memoryOutOfRange (u.pc.toNat + w)))) := by
  rcases advancePc_cases w u t h with ⟨-, rfl⟩ | ⟨hw, rfl⟩
  · exact .inl rfl
  · exact .inr ⟨hw, rfl⟩

/-! ### What an instruction changes, field by field -/

section
variable {i : Instr} {s t : State} (h : Effect i s t)
include h

/-- R19: FL after an instruction. -/
theorem fl_of_effect : t.fl = s.fl ∨
    ∃ a b, i = .cmp (regByte a) (regByte b) ∧ t.fl = cmpFlags (s.reg a) (s.reg b) := by
  cases h with
  | badRegister | hlt | jmp | jeqTaken | jneTaken => exact .inl rfl
  | cmp _ a b _ hadv => exact .inr ⟨a, b, rfl, advancePc_fl hadv⟩
  | ldi | prn | add | mul | push | pop | jeqFalls | jneFalls =>
    next hadv => exact .inl (advancePc_fl hadv :)

/-- R20, R34: memory after an instruction. -/
theorem mem_of_effect : t.mem = s.mem ∨
    ∃ r v, i = .push (regByte r) ∧ t.mem = s.mem.write (pushAddr s) v := by
  cases h with
  | badRegister | hlt | jmp | jeqTaken | jneTaken => exact .inl rfl
  | push _ r _ hadv => exact .inr ⟨r, _, rfl, advancePc_mem hadv⟩
  | ldi | prn | add | mul | cmp | pop | jeqFalls | jneFalls =>
    next hadv => exact .inl (advancePc_mem hadv :)

/-- R22, R92: the output after an instruction. -/
theorem out_of_effect : t.out = s.out ∨
    ∃ r, i = .prn (regByte r) ∧ t.out = s.out ++ [s.reg r] := by
  cases h with
  | badRegister | hlt | jmp | jeqTaken | jneTaken => exact .inl rfl
  | prn _ r _ hadv => exact .inr ⟨r, rfl, advancePc_out hadv⟩
  | ldi | add | mul | cmp | push | pop | jeqFalls | jneFalls =>
    next hadv => exact .inl (advancePc_out hadv :)

end

/-- R14, the column of registers written: the instruction may write register `k`. -/
def Writes (i : Instr) (k : Fin 8) : Prop :=
  (∃ x, i = .ldi (regByte k) x) ∨ (∃ x, i = .add (regByte k) x) ∨ (∃ x, i = .mul (regByte k) x) ∨
    i = .pop (regByte k) ∨ (k = 7 ∧ ∃ r, i = .push (regByte r) ∨ i = .pop (regByte r))

/-- R14: a register after an instruction. -/
theorem reg_of_effect {i : Instr} {s t : State} (h : Effect i s t) (k : Fin 8) :
    t.reg k = s.reg k ∨ Writes i k := by
  cases h with
  | badRegister | hlt | jmp | jeqTaken | jneTaken => exact .inl rfl
  | prn | cmp | jeqFalls | jneFalls => next hadv => exact .inl (advancePc_reg hadv k :)
  | ldi _ r x _ hadv =>
    by_cases hk : k = r
    · exact .inr (.inl ⟨x, hk ▸ rfl⟩)
    · exact .inl (by simp [advancePc_reg hadv, hk])
  | add _ r b _ hadv =>
    by_cases hk : k = r
    · exact .inr (.inr (.inl ⟨regByte b, hk ▸ rfl⟩))
    · exact .inl (by simp [advancePc_reg hadv, hk])
  | mul _ r b _ hadv =>
    by_cases hk : k = r
    · exact .inr (.inr (.inr (.inl ⟨regByte b, hk ▸ rfl⟩)))
    · exact .inl (by simp [advancePc_reg hadv, hk])
  | push _ r _ hadv =>
    by_cases hk : k = sp
    · exact .inr (.inr (.inr (.inr (.inr ⟨hk, r, .inl rfl⟩))))
    · exact .inl (by simp [advancePc_reg hadv, hk])
  | pop _ r _ hadv =>
    by_cases hsp : k = sp
    · exact .inr (.inr (.inr (.inr (.inr ⟨hsp, r, .inr rfl⟩))))
    · by_cases hk : k = r
      · exact .inr (.inr (.inr (.inr (.inl (hk ▸ rfl)))))
      · exact .inl (by simp [advancePc_reg hadv, hk, hsp])

/-! ### How an instruction ends -/

/-- R77: an instruction fetched by a running core runs on, halts, aborts on a register operand, or meets the end of memory at
its advance, which takes an advance by 3 at 253 and keeps everything but registers and FL. -/
theorem run_of_effect {i : Instr} {s t : State} (h : Effect i s t) (hs : s.run = .running)
    (hpc : i = .hlt ∨ s.pc.toNat + 2 ≤ 255) :
    t.run = .running ∨ (i = .hlt ∧ t = s.setRun .halted) ∨
    (∃ b ∈ i.regOperands, 8 ≤ b.toNat ∧ t = s.setRun (.aborted (.registerOutOfRange b))) ∨
    (s.pc.toNat = 253 ∧ t.run = .aborted (.memoryOutOfRange 256) ∧ t.pc = s.pc ∧ t.mem = s.mem ∧
      t.out = s.out) := by
  cases h with
  | badRegister _ _ b hb h8 => exact .inr (.inr (.inl ⟨b, hb, h8, rfl⟩))
  | hlt => exact .inr (.inl ⟨rfl, rfl⟩)
  | jmp | jeqTaken | jneTaken => exact .inl hs
  | prn | push | pop | jeqFalls | jneFalls =>
    next hadv =>
    rcases advancePc_run hadv with hr | ⟨hw, -⟩
    · exact .inl (hr.trans hs)
    · have hroom : s.pc.toNat + 2 ≤ 255 := hpc.resolve_left nofun
      have hpast : 255 < s.pc.toNat + 2 := hw
      omega
  | ldi | add | mul | cmp =>
    next hadv =>
    rcases advancePc_run hadv with hr | ⟨hw, rfl⟩
    · exact .inl (hr.trans hs)
    · have hroom : s.pc.toNat + 2 ≤ 255 := hpc.resolve_left nofun
      have hpast : 255 < s.pc.toNat + 3 := hw
      have h253 : s.pc.toNat = 253 := by omega
      exact .inr (.inr (.inr ⟨h253, by simp [h253], rfl, rfl, rfl⟩))

/-- R70: a step aborts in fetch with nothing else changed, or has the effect of the instruction fetched. -/
theorem step_effect {s t : State} (h : step s = .next t) :
    (∃ e, fetch opcodeOf s = .error e ∧ t = s.setRun (.aborted e)) ∨
    (∃ i, fetch opcodeOf s = .ok i ∧ Effect i s t) := by
  obtain ⟨-, he | ⟨i, hi, hx⟩⟩ := stepWith_cases opcodeOf s t h
  · exact .inl he
  · exact .inr ⟨i, hi, exec_effect i s t hx⟩

theorem running_of_step {s t : State} (h : step s = .next t) : s.run = .running :=
  (stepWith_cases opcodeOf s t h).1

end Sys2Proof.Machine
end

section
/-! PROOFS. The invariant: a booted image meets it, every step keeps it, so every reachable state has it. -/

namespace Sys2Proof.Safety

open Sys2Proof.Machine

/-- R87: the flags a comparison writes are legal. -/
theorem flagsLegal_cmpFlags (x y : Byte) : FlagsLegal (cmpFlags x y) := by
  rcases cmpFlags_cases x y with ⟨-, e⟩ | ⟨-, e⟩ | ⟨-, e⟩
  · exact .inr (.inl e)
  · exact .inr (.inr (.inl e))
  · exact .inr (.inr (.inr e))

theorem runTruthful_of_running {s : State} (h : s.run = .running) : RunTruthful s := by
  simp [RunTruthful, h]

/-- R110: an abort in fetch changes `run` alone. -/
theorem inv_setRun {s : State} {r : RunState} (hinv : Inv s) (hr : RunTruthful (s.setRun r)) :
    Inv (s.setRun r) :=
  ⟨hinv.memory, hinv.flags, hr⟩

/-- R73, R74: the reason fetch aborts with is true of the bytes at `pc`. -/
theorem runTruthful_of_fetch_error {s : State} {e : AbortReason} (h : fetch opcodeOf s = .error e) :
    RunTruthful (s.setRun (.aborted e)) := by
  rcases fetch_error h with ⟨rfl, hd⟩ | ⟨rfl, hpc⟩
  · exact ⟨rfl, hd⟩
  · exact ⟨rfl, Nat.le_of_succ_le hpc⟩

/-- R52, R113: a register operand of the instruction fetched stands at `pc + 1` or `pc + 2`. -/
theorem byteAt_of_mem_regOperands {s : State} {i : Instr} {b : Byte} (hi : fetch opcodeOf s = .ok i)
    (hb : b ∈ i.regOperands) : s.byteAt (s.pc.toNat + 1) = b ∨ s.byteAt (s.pc.toNat + 2) = b := by
  rcases fetch_ok hi with ⟨rfl, -⟩ | ⟨-, m, -, rfl⟩
  · cases hb
  · exact (mem_regOperands_assemble hb).imp Eq.symm Eq.symm

/-- R78: however an instruction ends, the run state it leaves is true of what `pc` addresses. -/
theorem runTruthful_of_effect {s t : State} {i : Instr} (hs : s.run = .running)
    (hi : fetch opcodeOf s = .ok i) (h : Effect i s t) : RunTruthful t := by
  have hroom : i = .hlt ∨ s.pc.toNat + 2 ≤ 255 := (fetch_ok hi).imp And.left And.left
  rcases run_of_effect h hs hroom with
    hr | ⟨rfl, rfl⟩ | ⟨b, hb, h8, rfl⟩ | ⟨h253, hr, hpc, -, -⟩
  · exact runTruthful_of_running hr
  · rcases fetch_ok hi with ⟨-, hbyte⟩ | ⟨-, m, hm, e⟩
    · exact hbyte
    · exact absurd ((congrArg Instr.mnemonic e).trans (assemble_mnemonic ..)).symm hm
  · exact ⟨h8, byteAt_of_mem_regOperands hi hb⟩
  · simp [RunTruthful, hr, hpc, h253]

theorem wf_mem_of_effect {s t : State} {i : Instr} (hm : Memory.wf s.mem) (h : Effect i s t) :
    Memory.wf t.mem := by
  rcases mem_of_effect h with e | ⟨r, v, -, e⟩
  · exact e ▸ hm
  · exact e ▸ Memory.wf_write s.mem (pushAddr s) v (wrapDec (s.reg sp)).isLt hm

theorem flagsLegal_of_effect {s t : State} {i : Instr} (hf : FlagsLegal s.fl) (h : Effect i s t) :
    FlagsLegal t.fl := by
  rcases fl_of_effect h with e | ⟨a, b, -, e⟩
  · exact e ▸ hf
  · exact e ▸ flagsLegal_cmpFlags (s.reg a) (s.reg b)

theorem inv_step {s t : State} (hinv : Inv s) (h : step s = .next t) : Inv t := by
  rcases step_effect h with ⟨e, he, rfl⟩ | ⟨i, hi, heff⟩
  · exact inv_setRun hinv (runTruthful_of_fetch_error he)
  · exact ⟨wf_mem_of_effect hinv.memory heff, flagsLegal_of_effect hinv.flags heff,
      runTruthful_of_effect (running_of_step h) hi heff⟩

theorem inv_reset : Inv State.reset :=
  ⟨⟨List.Pairwise.nil, fun _ hc => nomatch hc⟩, .inl rfl, trivial⟩

/-- R131: an image that is accepted leaves the reset state but for memory. -/
theorem boot_next {image : List Byte} {s : State} (h : boot image = .next s) :
    image.length ≤ Config.memSize ∧ s = State.reset.setMem (State.reset.mem.writeBytes 0 image) := by
  unfold boot at h
  split at h
  · next hlen => exact ⟨hlen, (Host.Outcome.next.inj h).symm⟩
  · cases h

theorem inv_of_boot {image : List Byte} {s : State} (h : boot image = .next s) : Inv s := by
  obtain ⟨hlen, rfl⟩ := boot_next h
  exact ⟨Memory.wf_writeBytes image _ 0 (by omega) inv_reset.memory, inv_reset.flags, trivial⟩

theorem inv_of_reachable {s : State} (h : Reachable s) : Inv s := by
  induction h with
  | boot image s h => exact inv_of_boot h
  | step s t _ h ih => exact inv_step ih h

end Sys2Proof.Safety

open Sys2Proof Sys2Proof.Machine Sys2Proof.Safety

/-- Settles O49: the three parts of `Inv`, each through what fetch can answer and what an instruction can change. -/
theorem everyStepKeepsTheInvariant : Obligations.EveryStepKeepsTheInvariant :=
  fun _ _ hinv h => inv_step hinv h

/-- Settles O48: reset's memory is empty, its flags are 0 and the core runs. -/
theorem resetMeetsTheInvariant : Obligations.ResetMeetsTheInvariant :=
  inv_reset

/-- Settles O50: each bound is a clause of the invariant. -/
theorem reachableStatesMeetTheSpecsBounds : Obligations.ReachableStatesMeetTheSpecsBounds := by
  intro s hs
  obtain ⟨-, hflags, hrun⟩ := inv_of_reachable hs
  refine ⟨hflags, fun addr h => ?_, fun op h => ?_⟩
  · simp only [RunTruthful, h] at hrun
    exact hrun.1
  · simp only [RunTruthful, h] at hrun
end

section
/-! PROOFS. `exec` on every instruction: one with a register operand above 7 aborts on the first such operand (R113); any other
names its registers, and has its equation in Laws/Exec. -/

namespace Sys2Proof.Machine

/-- R113: the first register operand above 7, in operand order. -/
abbrev firstBadOperand (i : Instr) : Option Byte := i.regOperands.find? fun b => 7 < b.toNat

/-- The instructions whose register operands all name registers. -/
inductive Named : Instr → Prop
  | hlt : Named .hlt
  | push (r : Fin 8) : Named (.push (regByte r))
  | pop (r : Fin 8) : Named (.pop (regByte r))
  | prn (r : Fin 8) : Named (.prn (regByte r))
  | jmp (r : Fin 8) : Named (.jmp (regByte r))
  | jeq (r : Fin 8) : Named (.jeq (regByte r))
  | jne (r : Fin 8) : Named (.jne (regByte r))
  | ldi (r : Fin 8) (imm : Byte) : Named (.ldi (regByte r) imm)
  | add (a b : Fin 8) : Named (.add (regByte a) (regByte b))
  | mul (a b : Fin 8) : Named (.mul (regByte a) (regByte b))
  | cmp (a b : Fin 8) : Named (.cmp (regByte a) (regByte b))

/-- R53. -/
theorem eq_regByte_of_lt {b : Byte} (h : b.toNat < 8) : ∃ r, b = regByte r := by
  rcases regCheck_cases b with ⟨r, e, -⟩ | ⟨h8, -⟩
  · exact ⟨r, e⟩
  · omega

theorem named_of_wellFormed {i : Instr} (h : i.WellFormed) : Named i := by
  have name (b : Byte) (hb : b ∈ i.regOperands) : ∃ r, b = regByte r := eq_regByte_of_lt (h b hb)
  cases i with
  | hlt => exact .hlt
  | push b | pop b | prn b | jmp b | jeq b | jne b | ldi b imm =>
    obtain ⟨r, rfl⟩ := name b (.head _)
    constructor
  | add x y | mul x y | cmp x y =>
    obtain ⟨a, rfl⟩ := name x (.head _)
    obtain ⟨b, rfl⟩ := name y (.tail _ (.head _))
    constructor

/-- R113: either no register operand is above 7 or there is a first one. -/
theorem named_or_bad (i : Instr) : Named i ∨ ∃ b, firstBadOperand i = some b := by
  cases hf : firstBadOperand i with
  | some b => exact .inr ⟨b, rfl⟩
  | none =>
    refine .inl (named_of_wellFormed fun b hb => ?_)
    have hle : ¬ 7 < b.toNat := by simpa using List.find?_eq_none.mp hf b hb
    omega

theorem large_of_find {l : List Byte} {r : Byte} (h : l.find? (fun b => 7 < b.toNat) = some r) :
    8 ≤ r.toNat :=
  Nat.succ_le_of_lt (by simpa using List.find?_some h)

/-- R88, R113: the ALU's `RegCheck` of `a`, then of `b`. -/
theorem alu_of_badOperand {op a b r : Byte} {sel : AluSelect} (hsel : aluSelect op = .ok sel) (s : State)
    (h : [a, b].find? (fun b => 7 < b.toNat) = some r) :
    alu op a b s = .next (s.setRun (.aborted (.registerOutOfRange r))) := by
  rw [alu_of_select op a b sel s hsel]
  by_cases ha : 7 < a.toNat
  · obtain rfl : a = r := by simpa [ha] using h
    exact withReg_of_large a s _ ha
  · obtain ⟨ra, rfl⟩ := eq_regByte_of_lt (b := a) (by omega)
    rw [List.find?_cons_of_neg (by simpa using ha)] at h
    obtain rfl : r = b := List.mem_singleton.mp (List.mem_of_find?_eq_some h)
    rw [withReg_regByte]
    exact withReg_of_large r s _ (large_of_find h)

/-- R113. -/
theorem exec_of_badOperand {i : Instr} {r : Byte} (s : State) (h : firstBadOperand i = some r) :
    exec i s = .next (s.setRun (.aborted (.registerOutOfRange r))) := by
  have hmem : r ∈ i.regOperands := List.mem_of_find?_eq_some h
  cases i with
  | hlt => cases hmem
  | push b | pop b | prn b | jmp b | jeq b | jne b | ldi b imm =>
    obtain rfl : r = b := List.mem_singleton.mp hmem
    exact withReg_of_large r s _ (large_of_find h)
  | add a b => exact alu_of_badOperand aluSelect_add s h
  | mul a b => exact alu_of_badOperand aluSelect_mul s h
  | cmp a b => exact alu_of_badOperand aluSelect_cmp s h

theorem advancePc_answers (w : Nat) (s : State) : ∃ t, advancePc w s = .next t := by
  by_cases hw : s.pc.toNat + w ≤ 255
  · exact ⟨_, advancePc_inside w s hw⟩
  · exact ⟨_, advancePc_past w s (by omega)⟩

theorem exec_answers (i : Instr) (s : State) : ∃ t, exec i s = .next t := by
  rcases named_or_bad i with hn | ⟨b, hb⟩
  · cases hn with
    | hlt => exact ⟨_, exec_hlt s⟩
    | push r => exact exec_push s r ▸ advancePc_answers 2 _
    | pop r => exact exec_pop s r ▸ advancePc_answers 2 _
    | prn r => exact exec_prn s r ▸ advancePc_answers 2 _
    | jmp r => exact ⟨_, exec_jmp s r⟩
    | jeq r =>
      rw [exec_jeq]
      split
      · exact ⟨_, rfl⟩
      · exact advancePc_answers 2 s
    | jne r =>
      rw [exec_jne]
      split
      · exact advancePc_answers 2 s
      · exact ⟨_, rfl⟩
    | ldi r imm => exact exec_ldi s r imm ▸ advancePc_answers 3 _
    | add a b => exact exec_add s a b ▸ advancePc_answers 3 _
    | mul a b => exact exec_mul s a b ▸ advancePc_answers 3 _
    | cmp a b => exact exec_cmp s a b ▸ advancePc_answers 3 _
  · exact ⟨_, exec_of_badOperand s hb⟩

/-- R76: an advance by 3 past 255 from `u`, beside the same advance with `pc` at 0. -/
theorem advancePc_three_past (u : State) (h : 253 ≤ u.pc.toNat) :
    ∃ v, advancePc 3 (u.setPc 0) = .next v ∧ v.run = u.run ∧
      advancePc 3 u =
        .next ((v.setPc u.pc).setRun (.aborted (.memoryOutOfRange (u.pc.toNat + 3)))) :=
  ⟨_, advancePc_inside 3 (u.setPc 0) (by simp), rfl, advancePc_past 3 u (by omega)⟩

end Sys2Proof.Machine

open Sys2Proof Sys2Proof.Machine

/-- Settles O15: a bad operand aborts, and every other instruction's equation ends in an answer. -/
theorem everyInstructionAnswersANextState : Obligations.EveryInstructionAnswersANextState :=
  exec_answers

/-- Settles O16: `exec_of_badOperand`. -/
theorem firstInvalidRegisterOperandAborts : Obligations.FirstInvalidRegisterOperandAborts :=
  fun _ s _ h => exec_of_badOperand s h

/-- Settles O27: the effect does not read `pc`, so it is the same with `pc` at 0, where the advance has room. -/
theorem advancePastTheTopKeepsTheEffectAndAborts :
    Obligations.AdvancePastTheTopKeepsTheEffectAndAborts := by
  intro s i hwf hpc hi
  cases named_of_wellFormed hwf with
  | ldi r imm =>
    rw [exec_ldi, exec_ldi]
    exact advancePc_three_past (s.setReg r imm) hpc
  | add a b =>
    rw [exec_add, exec_add]
    exact advancePc_three_past (s.setReg a (wrapAdd (s.reg a) (s.reg b))) hpc
  | mul a b =>
    rw [exec_mul, exec_mul]
    exact advancePc_three_past (s.setReg a (wrapMul (s.reg a) (s.reg b))) hpc
  | cmp a b =>
    rw [exec_cmp, exec_cmp]
    exact advancePc_three_past (s.setFl (cmpFlags (s.reg a) (s.reg b))) hpc
  | hlt | push | pop | prn | jmp | jeq | jne => simp at hi

/-- Settles O28: no case of the ALU's dispatch matches; and of the ways an instruction ends, none has this reason. -/
theorem aluRejectsForeignOpcodes : Obligations.AluRejectsForeignOpcodes := by
  refine ⟨fun op a b s hadd hmul hcmp => ?_, fun i s t op hx ht => ?_⟩
  · have hsel : aluSelect op = .error (.unsupportedALUOperation op) := by
      simp [aluSelect, hadd, hmul, hcmp]
    simp only [alu, hsel]
    rfl
  · cases exec_effect i s t hx with
    | badRegister | hlt => simp at ht
    | jmp | jeqTaken | jneTaken => exact ht
    | ldi | prn | add | mul | cmp | push | pop | jeqFalls | jneFalls =>
      next hadv =>
      rcases advancePc_run hadv with hr | ⟨-, rfl⟩
      · exact hr.symm.trans ht
      · simp at ht

/-- Settles O26: `exec_hlt`. -/
theorem hltHaltsAndChangesNothingElse : Obligations.HltHaltsAndChangesNothingElse :=
  exec_hlt
end

section
/-! PROOFS. The step (spec/40_execution_cycle.md): when it is enabled, what it executes, how it ends. -/

namespace Sys2Proof.Machine

/-- R50: three bytes that decode are assembled by the operation of the first. -/
theorem decode_three {om : OpcodeMap} {op a b : Byte} {i : Instr} {after : List Byte}
    (h : decode om [op, a, b] = .ok (i, after)) :
    ∃ m, decodeOpcode om op = some m ∧ i = assemble m a b := by
  cases hd : decodeOpcode om op with
  | none => simp [decode, hd] at h
  | some m =>
    have hlen : ¬ [a, b].length < m.arity := Nat.not_lt_of_le m.arity_le_two
    simp only [decode, hd, hlen, if_false, Except.ok.injEq, Prod.mk.injEq] at h
    exact ⟨m, rfl, h.1.symm⟩

theorem stepWith_answers {om : OpcodeMap} {s : State} (hs : s.run = .running) :
    ∃ t, stepWith om s = .next t := by
  cases hf : fetch om s with
  | ok i => exact stepWith_running om s i hs hf ▸ exec_answers i s
  | error e => exact ⟨_, stepWith_abort om s e hs hf⟩

/-- R72. -/
theorem stepWith_hlt {om : OpcodeMap} {s : State} (hs : s.run = .running)
    (h : s.byteAt s.pc.toNat = om .hlt) : stepWith om s = .next (s.setRun .halted) :=
  stepWith_running om s .hlt hs (fetch_hlt h)

/-- R73. -/
theorem stepWith_unknown {om : OpcodeMap} {s : State} (hs : s.run = .running)
    (h : decodeOpcode om (s.byteAt s.pc.toNat) = none) :
    stepWith om s = .next (s.setRun (.aborted (.unknownInstruction (s.byteAt s.pc.toNat)))) :=
  stepWith_abort om s _ hs (fetch_unknown h)

/-- R74, R75. -/
theorem stepWith_known {om : OpcodeMap} {s : State} {m : Mnemonic} (hs : s.run = .running)
    (h : decodeOpcode om (s.byteAt s.pc.toNat) = some m) (hm : m ≠ .hlt) (hpc : s.pc.toNat + 2 ≤ 255) :
    stepWith om s = exec (assemble m (s.byteAt (s.pc.toNat + 1)) (s.byteAt (s.pc.toNat + 2))) s :=
  stepWith_running om s _ hs ((fetch_known h hm).2 hpc)

end Sys2Proof.Machine

open Sys2Proof Sys2Proof.Machine

/-- Settles O8: the opcode byte decodes to the instruction's operation, so fetch assembles the same instruction. -/
theorem stepRunsTheDecodedInstruction : Obligations.StepRunsTheDecodedInstruction := by
  intro om s i after hs hdec hroom
  obtain ⟨m, hm, rfl⟩ := decode_three hdec
  have hstep : stepWith om s =
      exec (assemble m (s.byteAt (s.pc.toNat + 1)) (s.byteAt (s.pc.toNat + 2))) s := by
    by_cases hh : m = .hlt
    · subst hh
      exact stepWith_hlt hs (decodeOpcode_some om _ _ hm).symm
    · have hne : assemble m (s.byteAt (s.pc.toNat + 1)) (s.byteAt (s.pc.toNat + 2)) ≠ .hlt := fun e =>
        hh ((assemble_mnemonic m _ _).symm.trans (congrArg Instr.mnemonic e))
      exact stepWith_known hs hm hh (hroom.resolve_left hne)
  exact ⟨hstep, fun hom => by subst hom; exact hstep⟩

/-- Settles O9: a running core's step answers, a stopped core's faults. -/
theorem stepIsEnabledExactlyWhileRunning : Obligations.StepIsEnabledExactlyWhileRunning := fun s =>
  ⟨⟨fun ⟨_, h⟩ => running_of_step h, stepWith_answers⟩, stepWith_stopped opcodeOf s⟩

/-- Settles O10: `stepWith_hlt`, and the halted core takes no step. -/
theorem haltTestPrecedesDecodeAndOperandFetch : Obligations.HaltTestPrecedesDecodeAndOperandFetch :=
  fun _ _ hs h => ⟨_, stepWith_hlt hs h, rfl, rfl, rfl⟩

/-- Settles O11: a byte that is no opcode decodes to nothing; the aborted core takes no step. -/
theorem unknownOpcodeAbortsBeforeOperandFetch : Obligations.UnknownOpcodeAbortsBeforeOperandFetch :=
  fun om _ hs h =>
    ⟨_, stepWith_unknown hs ((decodeOpcode_none om _).mpr fun m => (h m).symm), rfl, rfl, rfl⟩

/-- Settles O12: the two ranges of `fetch_known`. -/
theorem operandFetchReadsBothBytesOrAborts : Obligations.OperandFetchReadsBothBytesOrAborts := by
  intro om s m hs hm hne
  refine ⟨fun hpc => ?_, fun hpc => stepWith_known hs hm hne (by omega)⟩
  exact stepWith_abort om s _ hs ((fetch_known hm hne).1 hpc)

/-- Settles O13: an abort in fetch changes nothing; an instruction ends as `run_of_effect` lists. -/
theorem stepHasOneOfThreeOutcomes : Obligations.StepHasOneOfThreeOutcomes := by
  intro s hs
  obtain ⟨t, ht⟩ : ∃ t, step s = .next t := stepWith_answers hs
  refine ⟨t, ht, ?_⟩
  rcases step_effect ht with ⟨e, -, rfl⟩ | ⟨i, hi, heff⟩
  · exact .inr (.inr ⟨e, rfl, .inl rfl⟩)
  · rcases run_of_effect heff hs ((fetch_ok hi).imp And.left And.left) with
      hr | ⟨-, rfl⟩ | ⟨b, -, -, rfl⟩ | ⟨h253, hr, hpc, hmem, hout⟩
    · exact .inl hr
    · exact .inr (.inl rfl)
    · exact .inr (.inr ⟨_, rfl, .inl rfl⟩)
    · exact .inr (.inr ⟨_, hr, .inr ⟨h253, rfl, hpc, hmem, hout⟩⟩)

/-- Settles O24: the jumps' equations, then the step at the target, whose bytes the jump left as they were. -/
theorem jumpsReplaceThePcAndNothingElse : Obligations.JumpsReplaceThePcAndNothingElse := by
  intro s r
  refine ⟨exec_jmp s r, fun he => ?_, fun he => ?_, fun om t hs ht => ?_⟩
  · exact (exec_jeq s r).trans (if_pos he)
  · exact (exec_jne s r).trans (if_neg (ne_true_of_eq_false he))
  · obtain rfl : s.setPc (s.reg r) = t := Host.Outcome.next.inj ((exec_jmp s r).symm.trans ht)
    have hrun : (s.setPc (s.reg r)).run = .running := hs
    refine ⟨stepWith_hlt hrun, fun hu => ?_, fun m => stepWith_known hrun⟩
    exact stepWith_unknown hrun ((decodeOpcode_none om _).mpr fun m => (hu m).symm)

/-- Settles O25: an untaken jump is an advance by 2 and nothing else. -/
theorem conditionalJumpsFallThroughByTwo : Obligations.ConditionalJumpsFallThroughByTwo := by
  intro s r hpc
  have htarget : BitVec.ofNat 8 (s.pc.toNat + 2) = s.pc + 2 := by simp [BitVec.ofNat_add]
  have hadv : advancePc 2 s = .next (s.setPc (s.pc + 2)) := htarget ▸ advancePc_inside 2 s hpc
  refine ⟨fun he => ?_, fun he => ?_, htarget ▸ toNat_advanced s.pc 2 hpc⟩
  · exact (exec_jeq s r).trans ((if_neg (ne_true_of_eq_false he)).trans hadv)
  · exact (exec_jne s r).trans ((if_pos he).trans hadv)
end

section
/-! PROOFS. The frames of the instructions and what each kind of state is written by, from the field lemmas on `Effect`. -/

namespace Sys2Proof.Machine

/-- R34: an instruction other than PUSH leaves every byte of memory. -/
theorem byteAt_of_effect {i : Instr} {s t : State} (h : Effect i s t) (hi : ∀ r, i ≠ .push r) (addr : Nat) :
    t.byteAt addr = s.byteAt addr := by
  rcases mem_of_effect h with e | ⟨r, _, e, -⟩
  · exact congrArg (·.read addr) e
  · exact absurd e (hi _)

theorem fl_of_effect_of_ne {i : Instr} {s t : State} (h : Effect i s t) (hi : ∀ a b, i ≠ .cmp a b) :
    t.fl = s.fl :=
  (fl_of_effect h).resolve_right fun ⟨_, _, e, _⟩ => hi _ _ e

theorem out_of_effect_of_ne {i : Instr} {s t : State} (h : Effect i s t) (hi : ∀ r, i ≠ .prn r) :
    t.out = s.out :=
  (out_of_effect h).resolve_right fun ⟨_, e, _⟩ => hi _ e

theorem reg_of_effect_of_not_writes {i : Instr} {s t : State} (h : Effect i s t) {k : Fin 8}
    (hi : ¬ Writes i k) : t.reg k = s.reg k :=
  (reg_of_effect h k).resolve_right hi

/-- R34: of memory, PUSH leaves every byte but the one at the decremented SP. -/
theorem byteAt_of_effect_of_ne {i : Instr} {s t : State} (h : Effect i s t) {addr : Nat}
    (ha : addr ≠ pushAddr s) : t.byteAt addr = s.byteAt addr := by
  rcases mem_of_effect h with e | ⟨_, v, -, e⟩
  · exact congrArg (·.read addr) e
  · rw [State.byteAt, e, Memory.read_write, if_neg ha]
    rfl

/-- R70: a step that changed something beyond `run` executed an instruction. -/
theorem effect_of_step_of_ne {α : Type} {s t : State} (f : State → α) (hf : ∀ r, f (s.setRun r) = f s)
    (h : step s = .next t) (hne : f t ≠ f s) : ∃ i, fetch opcodeOf s = .ok i ∧ Effect i s t := by
  rcases step_effect h with ⟨e, -, rfl⟩ | hi
  · exact absurd (hf _) hne
  · exact hi

end Sys2Proof.Machine

open Sys2Proof Sys2Proof.Machine

/-- Settles O29: the three write only the register named first, by `Writes`. -/
theorem frameOfLdiAddMul : Obligations.FrameOfLdiAddMul := by
  intro s t i d x hi hx
  have h := exec_effect i s t hx
  have hreg (k : Fin 8) (hk : k.val ≠ d.toNat) : ¬ Writes i k := by
    have hd : d ≠ regByte k := fun e => hk (by rw [e, regByte_toNat])
    rcases hi with rfl | rfl | rfl <;> simp [Writes, hd]
  refine ⟨fun k hk => reg_of_effect_of_not_writes h (hreg k hk), fl_of_effect_of_ne h ?_,
    byteAt_of_effect h ?_, out_of_effect_of_ne h ?_⟩
  all_goals rcases hi with rfl | rfl | rfl <;> simp

/-- Settles O30: none of the six stands among `Writes` or stores to memory. -/
theorem frameOfCmpPrnJumpsHlt : Obligations.FrameOfCmpPrnJumpsHlt := by
  intro s t i hi hx
  have h := exec_effect i s t hx
  refine ⟨fun k => reg_of_effect_of_not_writes h ?_, byteAt_of_effect h ?_, fl_of_effect_of_ne h,
    out_of_effect_of_ne h⟩
  all_goals
    rcases hi with ⟨a, b, rfl⟩ | ⟨r, rfl⟩ | ⟨r, rfl⟩ | ⟨r, rfl⟩ | ⟨r, rfl⟩ | rfl <;> simp [Writes]

/-- Settles O31: of `Writes`, PUSH has register 7 alone. -/
theorem frameOfPush : Obligations.FrameOfPush := by
  intro s t r hx
  have h := exec_effect _ s t hx
  refine ⟨fun k hk => reg_of_effect_of_not_writes h ?_, fl_of_effect_of_ne h (by simp),
    out_of_effect_of_ne h (by simp), ?_⟩
  · simp [Writes, hk]
  · rintro _ rfl addr ha
    exact byteAt_of_effect_of_ne h ha

/-- Settles O32: of `Writes`, POP has its own register and register 7. -/
theorem frameOfPop : Obligations.FrameOfPop := by
  intro s t r hx
  have h := exec_effect _ s t hx
  refine ⟨fun k hk hr => reg_of_effect_of_not_writes h ?_, fl_of_effect_of_ne h (by simp),
    out_of_effect_of_ne h (by simp), byteAt_of_effect h (by simp)⟩
  have hd : r ≠ regByte k := fun e => hr (by rw [e, regByte_toNat])
  simp [Writes, hk, hd]

/-- Settles O33: `fl_of_effect`, and the three outcomes of a comparison. -/
theorem onlyCmpChangesTheFlags : Obligations.OnlyCmpChangesTheFlags := by
  intro s t h hne
  obtain ⟨i, hi, heff⟩ := effect_of_step_of_ne State.fl (fun _ => rfl) h hne
  obtain ⟨a, b, rfl, e⟩ := (fl_of_effect heff).resolve_left hne
  refine ⟨_, _, hi, ?_⟩
  rw [e]
  exact (cmpFlags_cases (s.reg a) (s.reg b)).imp And.right (Or.imp And.right And.right)

/-- Settles O34: `mem_of_effect`. -/
theorem onlyPushWritesMemory : Obligations.OnlyPushWritesMemory := by
  intro s t h hne
  obtain ⟨i, hi, heff⟩ := effect_of_step_of_ne State.mem (fun _ => rfl) h hne
  obtain ⟨r, _, rfl, -⟩ := (mem_of_effect heff).resolve_left hne
  exact ⟨r, hi, fun addr ha => byteAt_of_effect_of_ne heff ha⟩

/-- Settles O35: `out_of_effect`. -/
theorem onlyPrnChangesTheOutput : Obligations.OnlyPrnChangesTheOutput := by
  intro s t h hne
  obtain ⟨i, hi, heff⟩ := effect_of_step_of_ne State.out (fun _ => rfl) h hne
  obtain ⟨r, rfl, e⟩ := (out_of_effect heff).resolve_left hne
  exact ⟨r, hi, e⟩

/-- Settles O36: `reg_of_effect`. -/
theorem onlyNamedRegistersAreWritten : Obligations.OnlyNamedRegistersAreWritten := by
  intro s t k h hne
  obtain ⟨i, hi, heff⟩ := effect_of_step_of_ne (·.reg k) (fun _ => rfl) h hne
  exact ⟨i, hi, (reg_of_effect heff k).resolve_left hne⟩
end

section
/-! PROOFS. What each instruction does when it completes, and short sequences of them (spec/41_alu.md to 44_control.md). -/

namespace Sys2Proof.Machine

/-- The state after an advance by `w` that has room (R76). -/
def State.advanced (s : State) (w : Nat) : State := s.setPc (BitVec.ofNat 8 (s.pc.toNat + w))

theorem advancePc_eq_advanced {w : Nat} {s : State} (h : s.pc.toNat + w ≤ 255) :
    advancePc w s = .next (s.advanced w) :=
  advancePc_inside w s h

section
variable (s : State) (w : Nat)

@[simp] theorem State.advanced_reg (k : Fin 8) : (s.advanced w).reg k = s.reg k := rfl
@[simp] theorem State.advanced_byteAt (addr : Nat) : (s.advanced w).byteAt addr = s.byteAt addr := rfl

theorem State.advanced_pc (h : s.pc.toNat + w ≤ 255) : (s.advanced w).pc.toNat = s.pc.toNat + w :=
  toNat_advanced s.pc w h

end

section
variable {x y : Byte}

/-- R87: equal. -/
theorem cmpFlags_of_eq (h : x.toNat = y.toNat) : cmpFlags x y = flagE :=
  if_pos (BitVec.eq_of_toNat_eq h)

/-- R87: less, unsigned. -/
theorem cmpFlags_of_lt (h : x.toNat < y.toNat) : cmpFlags x y = flagL := by
  have hne : x ≠ y := fun e => Nat.ne_of_lt h (congrArg BitVec.toNat e)
  simp [cmpFlags, hne, h]

/-- R87: greater, unsigned. -/
theorem cmpFlags_of_gt (h : y.toNat < x.toNat) : cmpFlags x y = flagG := by
  have hne : x ≠ y := fun e => Nat.ne_of_gt h (congrArg BitVec.toNat e)
  simp [cmpFlags, hne, Nat.not_lt_of_gt h]

end

/-- R93: what PUSH has made of the state before its advance. -/
def State.pushed (s : State) (r : Fin 8) : State :=
  (s.setReg sp (wrapDec (s.reg sp))).setMem
    (s.mem.write (pushAddr s) (if r = sp then wrapDec (s.reg sp) else s.reg r))

/-- R94: what POP has made of the state before its advance. -/
def State.popped (s : State) (r : Fin 8) : State :=
  (s.setReg r (s.byteAt (popAddr s))).setReg sp
    (wrapInc (if sp = r then s.byteAt (popAddr s) else s.reg sp))

section
variable (s : State) (r k : Fin 8) (addr : Nat)

theorem exec_push_eq_pushed : exec (.push (regByte r)) s = advancePc 2 (s.pushed r) := exec_push s r

theorem exec_pop_eq_popped : exec (.pop (regByte r)) s = advancePc 2 (s.popped r) := exec_pop s r

@[simp] theorem State.pushed_pc : (s.pushed r).pc = s.pc := rfl
@[simp] theorem State.popped_pc : (s.popped r).pc = s.pc := rfl

theorem State.pushed_reg : (s.pushed r).reg k = if k = sp then wrapDec (s.reg sp) else s.reg k :=
  State.reg_setReg s sp k _

theorem State.pushed_byteAt : (s.pushed r).byteAt addr =
    if addr = pushAddr s then (if r = sp then wrapDec (s.reg sp) else s.reg r) else s.byteAt addr :=
  Memory.read_write s.mem (pushAddr s) addr _

/-- R93: a register other than SP arrives at the decremented SP as it was. -/
theorem State.pushed_byteAt_pushAddr (h : r ≠ 7) : (s.pushed r).byteAt (pushAddr s) = s.reg r :=
  (State.pushed_byteAt s r (pushAddr s)).trans ((if_pos rfl).trans (if_neg h))

theorem State.popped_reg : (s.popped r).reg k =
    if k = sp then wrapInc (if sp = r then s.byteAt (popAddr s) else s.reg sp)
    else if k = r then s.byteAt (popAddr s) else s.reg k := by
  rw [popped, reg_setReg, reg_setReg]

end

end Sys2Proof.Machine

open Sys2Proof Sys2Proof.Machine

/-- Settles O17: `exec_ldi`, with room for its advance. -/
theorem ldiLoadsTheImmediate : Obligations.LdiLoadsTheImmediate := by
  intro s r imm hpc
  have hadv := advancePc_eq_advanced (s := s.setReg r imm) hpc
  refine ⟨_, (exec_ldi s r imm).trans hadv, by simp, fun k hk => by simp [hk], ?_, rfl, fun _ => rfl, rfl, rfl⟩
  exact State.advanced_pc _ 3 hpc

/-- Settles O18: `exec_prn`, with room for its advance. -/
theorem prnAppendsTheRegisterToTheOutput : Obligations.PrnAppendsTheRegisterToTheOutput := by
  intro s r hpc
  have hadv := advancePc_eq_advanced (s := s.emit (s.reg r)) hpc
  refine ⟨_, (exec_prn s r).trans hadv, rfl, fun _ => rfl, ?_, rfl, fun _ => rfl, rfl⟩
  exact State.advanced_pc _ 2 hpc

/-- Settles O19: `exec_add`, with room for its advance. -/
theorem addWritesTheSumModulo256 : Obligations.AddWritesTheSumModulo256 := by
  intro s a b hpc
  have hadv := advancePc_eq_advanced (s := s.setReg a (wrapAdd (s.reg a) (s.reg b))) hpc
  refine ⟨_, (exec_add s a b).trans hadv, ?_, fun k hk => by simp [hk], ?_, rfl, fun _ => rfl, rfl, rfl⟩
  · rw [State.advanced_reg, State.reg_setReg, if_pos rfl, wrapAdd_toNat]
  · exact State.advanced_pc _ 3 hpc

/-- Settles O20: `exec_mul`, with room for its advance. -/
theorem mulWritesTheProductModulo256 : Obligations.MulWritesTheProductModulo256 := by
  intro s a b hpc
  have hadv := advancePc_eq_advanced (s := s.setReg a (wrapMul (s.reg a) (s.reg b))) hpc
  refine ⟨_, (exec_mul s a b).trans hadv, ?_, fun k hk => by simp [hk], ?_, rfl, fun _ => rfl, rfl, rfl⟩
  · rw [State.advanced_reg, State.reg_setReg, if_pos rfl, wrapMul_toNat]
  · exact State.advanced_pc _ 3 hpc

/-- Settles O21: one case of `cmpFlags` for each outcome. -/
theorem cmpOverwritesTheFlags : Obligations.CmpOverwritesTheFlags := by
  intro s a b hpc
  have hadv := advancePc_eq_advanced (s := s.setFl (cmpFlags (s.reg a) (s.reg b))) hpc
  exact ⟨_, (exec_cmp s a b).trans hadv, cmpFlags_of_eq, cmpFlags_of_lt, cmpFlags_of_gt, fun _ => rfl,
    State.advanced_pc _ 3 hpc, fun _ => rfl, rfl, rfl⟩

/-- Settles O22: `pushed` field by field, with room for the advance. -/
theorem pushStoresBelowTheStackPointer : Obligations.PushStoresBelowTheStackPointer := by
  intro s r hpc
  refine ⟨_, (exec_push_eq_pushed s r).trans (advancePc_eq_advanced hpc), wrapDec_toNat _, ?_, ?_, ?_, ?_,
    State.advanced_pc _ 2 hpc, rfl, rfl, rfl⟩
  · rfl
  · by_cases hr : r = 7 <;> simp [State.pushed_byteAt, State.pushed_reg, sp, hr]
  · exact fun addr ha => by simp [State.pushed_byteAt, ha]
  · exact fun k hk => by simp [State.pushed_reg, sp, hk]

/-- Settles O23: `popped` field by field, with room for the advance. -/
theorem popLoadsFromTheStackPointer : Obligations.PopLoadsFromTheStackPointer := by
  intro s r hpc
  refine ⟨_, (exec_pop_eq_popped s r).trans (advancePc_eq_advanced hpc), fun hr => ⟨?_, ?_⟩, fun hr => ?_,
    fun _ => rfl, fun k hk h7 => ?_, State.advanced_pc _ 2 hpc, rfl, rfl, rfl⟩
  · simp [State.popped_reg, sp, hr, popAddr]
  · simp [State.popped_reg, sp, Ne.symm hr, wrapInc_toNat]
  · simp [State.popped_reg, sp, hr, popAddr, wrapInc_toNat]
  · simp [State.popped_reg, sp, hk, h7]

/-- Settles O39: PUSH stores at `pc + 2`, where its own advance leads, so the next fetch reads the pushed byte. -/
theorem pushedByteIsFetchedByTheNextStep : Obligations.PushedByteIsFetchedByTheNextStep := by
  intro s r hs hf hr haddr
  have hpc : s.pc.toNat + 2 ≤ 255 := by
    rcases fetch_ok hf with ⟨e, -⟩ | ⟨h, -⟩
    · cases e
    · exact h
  have hstep : step s = .next ((s.pushed r).advanced 2) :=
    (stepWith_running opcodeOf s _ hs hf).trans
      ((exec_push_eq_pushed s r).trans (advancePc_eq_advanced hpc))
  have hbyte : ((s.pushed r).advanced 2).byteAt ((s.pushed r).advanced 2).pc.toNat = s.reg r := by
    rw [State.advanced_pc (s.pushed r) 2 hpc, State.advanced_byteAt, State.pushed_pc, ← haddr,
      State.pushed_byteAt_pushAddr s r hr]
  refine ⟨_, hstep, hbyte, fun hh => stepWith_hlt hs (hbyte.trans hh), fun hu => ?_⟩
  exact hbyte ▸ stepWith_unknown hs (hbyte.symm ▸ hu)

/-- Settles O40: POP reads where PUSH stored, and increment undoes decrement. -/
theorem pushThenPopRestoresValueAndStackPointer :
    Obligations.PushThenPopRestoresValueAndStackPointer := by
  intro s j k hj hk hpc
  have hroom : (s.pushed j).pc.toNat + 2 ≤ 255 := by rw [State.pushed_pc]; omega
  obtain ⟨u, hu⟩ : ∃ u, u = (s.pushed j).advanced 2 := ⟨_, rfl⟩
  have hpush : exec (.push (regByte j)) s = .next u :=
    hu ▸ (exec_push_eq_pushed s j).trans (advancePc_eq_advanced hroom)
  have hupc : u.pc.toNat = s.pc.toNat + 2 := hu ▸ State.advanced_pc (s.pushed j) 2 hroom
  have hureg (l : Fin 8) : u.reg l = if l = sp then wrapDec (s.reg sp) else s.reg l :=
    hu ▸ State.pushed_reg s j l
  have husp : popAddr u = pushAddr s := by rw [popAddr, hureg, if_pos rfl, pushAddr]
  have hbyte : u.byteAt (pushAddr s) = s.reg j := by
    rw [hu, State.advanced_byteAt, State.pushed_byteAt_pushAddr s j hj]
  have hk' : sp ≠ k := hk.symm
  have htreg (l : Fin 8) : (u.popped k).reg l = if l = k then s.reg j else s.reg l := by
    rw [State.popped_reg, husp, hbyte]
    by_cases hl : l = sp
    · simp [hl, hk', hureg, wrapInc_wrapDec]
    · simp [hl, hureg]
  have hroom' : (u.popped k).pc.toNat + 2 ≤ 255 := by rw [State.popped_pc]; omega
  refine ⟨u, (u.popped k).advanced 2, hpush,
    (exec_pop_eq_popped u k).trans (advancePc_eq_advanced hroom'), ?_, ?_, hbyte, ?_, ?_⟩
  · exact (htreg k).trans (if_pos rfl)
  · exact (htreg 7).trans (if_neg hk.symm)
  · exact fun l hl => (htreg l).trans (if_neg hl)
  · rw [State.advanced_pc _ 2 hroom', State.popped_pc, hupc]

/-- Settles O41: PRN emits the register that LDI has just written. -/
theorem ldiThenPrnEmitsTheImmediate : Obligations.LdiThenPrnEmitsTheImmediate := by
  intro s r imm hpc
  obtain ⟨u, hldi, hreg, -, hupc, -, -, -, hout⟩ := ldiLoadsTheImmediate s r imm (by omega)
  obtain ⟨t, hprn, htout, -, htpc, -⟩ := prnAppendsTheRegisterToTheOutput u r (by omega)
  exact ⟨u, t, hldi, hprn, by rw [htout, hout, hreg], by omega⟩

/-- Settles O42: after a comparison E is set exactly on equality (`equalSet_cmpFlags`), and E decides both jumps. -/
theorem branchesAfterCmpFollowTheComparison : Obligations.BranchesAfterCmpFollowTheComparison := by
  intro s a b r hpc
  obtain ⟨u, hu⟩ : ∃ u, u = (s.setFl (cmpFlags (s.reg a) (s.reg b))).advanced 3 := ⟨_, rfl⟩
  have hcmp : exec (.cmp (regByte a) (regByte b)) s = .next u :=
    hu ▸ (exec_cmp s a b).trans (advancePc_eq_advanced (by rw [State.setFl_pc]; omega))
  have hupc : u.pc.toNat = s.pc.toNat + 3 := hu ▸ State.advanced_pc _ 3 (by rw [State.setFl_pc]; omega)
  have hreg : u.reg r = s.reg r := hu ▸ rfl
  have he : equalSet u.fl = decide (s.reg a = s.reg b) := hu ▸ equalSet_cmpFlags (s.reg a) (s.reg b)
  have hadv : advancePc 2 u = .next (u.advanced 2) := advancePc_eq_advanced (by omega)
  have hfall : (u.advanced 2).pc.toNat = s.pc.toNat + 5 := by
    rw [State.advanced_pc u 2 (by omega), hupc]
  refine ⟨u, hcmp, ?_⟩
  rw [exec_jeq, exec_jne, he, hadv]
  by_cases hab : s.reg a = s.reg b
  · simp [hab, hreg, hfall]
  · simp [hab, hreg, hfall]
end

section
/-! PROOFS. What no instruction reads: a relation between states that every update keeps and whose states agree on all that is
read is kept by the step. -/

namespace Sys2Proof.Machine

/-- A relation between states which no instruction can tell apart: they agree on registers, `pc`, memory, `run` and E, and
every update keeps the relation. -/
structure Blind (R : State → State → Prop) : Prop where
  regs : ∀ {s t}, R s t → t.regs = s.regs
  pc : ∀ {s t}, R s t → t.pc = s.pc
  mem : ∀ {s t}, R s t → t.mem = s.mem
  run : ∀ {s t}, R s t → t.run = s.run
  equal : ∀ {s t}, R s t → equalSet t.fl = equalSet s.fl
  setReg : ∀ {s t}, R s t → ∀ i v, R (s.setReg i v) (t.setReg i v)
  setPc : ∀ {s t}, R s t → ∀ v, R (s.setPc v) (t.setPc v)
  setFl : ∀ {s t}, R s t → ∀ v, R (s.setFl v) (t.setFl v)
  setMem : ∀ {s t}, R s t → ∀ m, R (s.setMem m) (t.setMem m)
  setRun : ∀ {s t}, R s t → ∀ r, R (s.setRun r) (t.setRun r)
  emit : ∀ {s t}, R s t → ∀ v, R (s.emit v) (t.emit v)

/-- Both answer a next state, and the two are related. -/
def BothNext (R : State → State → Prop) (o p : Host.Outcome State Fault Refusal) : Prop :=
  ∃ t u, o = .next t ∧ p = .next u ∧ R t u

section
variable {R : State → State → Prop} (hR : Blind R) {s t : State} (h : R s t)
include hR h

theorem reg_blind (k : Fin 8) : t.reg k = s.reg k :=
  congrArg (·.get k) (hR.regs h)

theorem byteAt_blind (addr : Nat) : t.byteAt addr = s.byteAt addr :=
  congrArg (·.read addr) (hR.mem h)

theorem pushAddr_blind : pushAddr t = pushAddr s := by
  rw [pushAddr, reg_blind hR h, pushAddr]

theorem popAddr_blind : popAddr t = popAddr s := by
  rw [popAddr, reg_blind hR h, popAddr]

theorem advancePc_blind (w : Nat) : BothNext R (advancePc w s) (advancePc w t) := by
  have hpc := hR.pc h
  by_cases hw : s.pc.toNat + w ≤ 255
  · exact ⟨_, _, advancePc_inside w s hw, advancePc_inside w t (hpc ▸ hw), hpc ▸ hR.setPc h _⟩
  · have hw : 255 < s.pc.toNat + w := by omega
    exact ⟨_, _, advancePc_past w s hw, advancePc_past w t (hpc ▸ hw), hpc ▸ hR.setRun h _⟩

theorem jump_blind (r : Fin 8) :
    BothNext R (.next (s.setPc (s.reg r))) (.next (t.setPc (t.reg r))) :=
  ⟨_, _, rfl, rfl, reg_blind hR h r ▸ hR.setPc h _⟩

theorem exec_blind (i : Instr) : BothNext R (exec i s) (exec i t) := by
  have hreg := reg_blind hR h
  rcases named_or_bad i with hn | ⟨b, hb⟩
  · cases hn with
    | hlt => exact ⟨_, _, exec_hlt s, exec_hlt t, hR.setRun h .halted⟩
    | push r =>
      rw [exec_push, exec_push, hreg, hreg, pushAddr_blind hR h, hR.mem h]
      exact advancePc_blind hR (hR.setMem (hR.setReg h _ _) _) 2
    | pop r =>
      rw [exec_pop, exec_pop, hreg, popAddr_blind hR h, byteAt_blind hR h]
      exact advancePc_blind hR (hR.setReg (hR.setReg h _ _) _ _) 2
    | prn r =>
      rw [exec_prn, exec_prn, hreg]
      exact advancePc_blind hR (hR.emit h _) 2
    | jmp r =>
      rw [exec_jmp, exec_jmp]
      exact jump_blind hR h r
    | jeq r =>
      rw [exec_jeq, exec_jeq, hR.equal h]
      split
      · exact jump_blind hR h r
      · exact advancePc_blind hR h 2
    | jne r =>
      rw [exec_jne, exec_jne, hR.equal h]
      split
      · exact advancePc_blind hR h 2
      · exact jump_blind hR h r
    | ldi r imm =>
      rw [exec_ldi, exec_ldi]
      exact advancePc_blind hR (hR.setReg h _ _) 3
    | add a b =>
      rw [exec_add, exec_add, hreg, hreg]
      exact advancePc_blind hR (hR.setReg h _ _) 3
    | mul a b =>
      rw [exec_mul, exec_mul, hreg, hreg]
      exact advancePc_blind hR (hR.setReg h _ _) 3
    | cmp a b =>
      rw [exec_cmp, exec_cmp, hreg, hreg]
      exact advancePc_blind hR (hR.setFl h _) 3
  · exact ⟨_, _, exec_of_badOperand s hb, exec_of_badOperand t hb, hR.setRun h _⟩

theorem fetch_blind (om : OpcodeMap) : fetch om t = fetch om s := by
  simp only [fetch, memRead, byteAt_blind hR h, hR.pc h]

/-- R70: the step does not tell related states apart. -/
theorem step_blind {s' : State} (hstep : step s = .next s') : ∃ t', step t = .next t' ∧ R s' t' := by
  obtain ⟨hs, ⟨e, he, rfl⟩ | ⟨i, hi, hx⟩⟩ := stepWith_cases opcodeOf s s' hstep
  all_goals have ht : t.run = .running := (hR.run h).trans hs
  · exact ⟨_, stepWith_abort opcodeOf t e ht ((fetch_blind hR h _).trans he), hR.setRun h _⟩
  · obtain ⟨u, t', hu, ht', hrel⟩ := exec_blind hR h i
    obtain rfl : u = s' := Host.Outcome.next.inj (hu.symm.trans hx)
    exact ⟨t', (stepWith_running opcodeOf t i ht ((fetch_blind hR h _).trans hi)).trans ht', hrel⟩

end

/-- The same state but for the output, which has grown by the same bytes from `base` and from `before`. -/
def OutputsGrowAlike (base before : List Byte) (s t : State) : Prop :=
  ∃ emitted, s.out = base ++ emitted ∧ t = { s with out := before ++ emitted }

theorem outputsGrowAlike_blind (base before : List Byte) : Blind (OutputsGrowAlike base before) where
  regs := by rintro _ _ ⟨_, _, rfl⟩; rfl
  pc := by rintro _ _ ⟨_, _, rfl⟩; rfl
  mem := by rintro _ _ ⟨_, _, rfl⟩; rfl
  run := by rintro _ _ ⟨_, _, rfl⟩; rfl
  equal := by rintro _ _ ⟨_, _, rfl⟩; rfl
  setReg := by rintro _ _ ⟨e, hout, rfl⟩ _ _; exact ⟨e, hout, rfl⟩
  setPc := by rintro _ _ ⟨e, hout, rfl⟩ _; exact ⟨e, hout, rfl⟩
  setFl := by rintro _ _ ⟨e, hout, rfl⟩ _; exact ⟨e, hout, rfl⟩
  setMem := by rintro _ _ ⟨e, hout, rfl⟩ _; exact ⟨e, hout, rfl⟩
  setRun := by rintro _ _ ⟨e, hout, rfl⟩ _; exact ⟨e, hout, rfl⟩
  emit := by rintro _ _ ⟨e, hout, rfl⟩ v; exact ⟨e ++ [v], by simp [hout], by simp [State.emit]⟩

/-- The same state but for the bits of FL other than E. -/
def DifferInOtherFlags (s t : State) : Prop :=
  ∃ fl, equalSet fl = equalSet s.fl ∧ t = { s with fl := fl }

theorem differInOtherFlags_blind : Blind DifferInOtherFlags where
  regs := by rintro _ _ ⟨_, _, rfl⟩; rfl
  pc := by rintro _ _ ⟨_, _, rfl⟩; rfl
  mem := by rintro _ _ ⟨_, _, rfl⟩; rfl
  run := by rintro _ _ ⟨_, _, rfl⟩; rfl
  equal := by rintro _ _ ⟨_, he, rfl⟩; exact he
  setReg := by rintro _ _ ⟨fl, he, rfl⟩ _ _; exact ⟨fl, he, rfl⟩
  setPc := by rintro _ _ ⟨fl, he, rfl⟩ _; exact ⟨fl, he, rfl⟩
  setFl := by rintro _ _ ⟨_, _, rfl⟩ v; exact ⟨v, rfl, rfl⟩
  setMem := by rintro _ _ ⟨fl, he, rfl⟩ _; exact ⟨fl, he, rfl⟩
  setRun := by rintro _ _ ⟨fl, he, rfl⟩ _; exact ⟨fl, he, rfl⟩
  emit := by rintro _ _ ⟨fl, he, rfl⟩ _; exact ⟨fl, he, rfl⟩

/-- R22: a step only appends to the output. -/
theorem out_grows_of_step {s t : State} (h : step s = .next t) : ∃ emitted, t.out = s.out ++ emitted := by
  rcases step_effect h with ⟨e, -, rfl⟩ | ⟨i, -, heff⟩
  · exact ⟨[], (List.append_nil s.out).symm⟩
  · rcases out_of_effect heff with e | ⟨r, -, e⟩
    · exact ⟨[], e.trans (List.append_nil s.out).symm⟩
    · exact ⟨[s.reg r], e⟩

end Sys2Proof.Machine

open Sys2Proof Sys2Proof.Machine

/-- Settles O37: `OutputsGrowAlike` holds before the step with nothing emitted, and no step can tell. -/
theorem outputNeverInfluencesAStep : Obligations.OutputNeverInfluencesAStep := by
  intro s t h
  obtain ⟨emitted, hout⟩ := out_grows_of_step h
  refine ⟨emitted, hout, fun before => ?_⟩
  have hrel : OutputsGrowAlike s.out before s { s with out := before } :=
    ⟨[], (List.append_nil s.out).symm, by rw [List.append_nil]⟩
  obtain ⟨t', ht', e, he, rfl⟩ := step_blind (outputsGrowAlike_blind s.out before) hrel h
  obtain rfl : e = emitted := List.append_cancel_left (he.symm.trans hout)
  exact ht'

/-- Settles O38: `DifferInOtherFlags` is what no step can tell. -/
theorem onlyTheEqualFlagIsEverRead : Obligations.OnlyTheEqualFlagIsEverRead := by
  intro s t fl he h
  obtain ⟨_, ht', fl', -, rfl⟩ :=
    step_blind differInOtherFlags_blind (t := { s with fl := fl }) ⟨fl, he, rfl⟩ h
  exact ⟨fl', ht'⟩
end

section
/-! PROOFS. Memory accesses, reset, the image and the exit status (spec/20_memory.md, 70_reset_and_hazards.md, 60_exceptions.md). -/

open Sys2Proof Sys2Proof.Machine Sys2Proof.Safety

namespace Sys2Proof.Machine

theorem memWrite_inside (s : State) (addr : Nat) (v : Byte) (h : addr ≤ 255) :
    memWrite s addr v = .ok (s.setMem (s.mem.write addr v)) :=
  if_neg (by rw [Config.memSize]; omega)

theorem memWrite_past (s : State) (addr : Nat) (v : Byte) (h : 255 < addr) :
    memWrite s addr v = .error (.memoryOutOfRange addr) :=
  if_pos h

/-- R37: in canonical form, writing the byte a cell holds is no change of data. -/
theorem Memory.write_read_self {m : Memory} {addr : Nat} (hm : m.wf) (ha : addr < Config.memSize) :
    m.write addr (m.read addr) = m := by
  refine Memory.eq_of_read_eq _ m (Memory.wf_write m addr _ ha hm) hm fun other => ?_
  rw [Memory.read_write]
  split
  · next e => rw [e]
  · rfl

end Sys2Proof.Machine

/-- Settles O43: the two ranges of `memRead` and `memWrite`, and `Memory.read_write` between them. -/
theorem memoryAccessesAreRangeCheckedAndExact : Obligations.MemoryAccessesAreRangeCheckedAndExact := by
  intro s addr v
  refine ⟨fun h => ⟨memRead_inside s addr (by omega), _, memWrite_inside s addr v (by omega), ?_, ?_, rfl⟩,
    fun h => ⟨memRead_past s addr h, memWrite_past s addr v h⟩⟩
  · rw [memRead_inside _ addr (by omega), State.byteAt_setMem, Memory.read_write, if_pos rfl]
  · intro other ho
    rw [memRead, memRead, State.byteAt_setMem, Memory.read_write, if_neg ho]
    rfl

/-- Settles O44: `Memory.write_read_self`. -/
theorem rewritingTheHeldByteChangesNothing : Obligations.RewritingTheHeldByteChangesNothing := by
  intro s addr hm ha
  rw [memWrite_inside s addr _ (by omega), State.byteAt, Memory.write_read_self hm ha]
  rfl

/-- Settles O45: each field of the reset state; the register file one register at a time. -/
theorem resetZeroesTheMachine : Obligations.ResetZeroesTheMachine :=
  ⟨by decide, rfl, rfl, fun _ => rfl, rfl, rfl, fun _ => rfl⟩

/-- Settles O46: the image reads back by `Memory.read_writeBytes`, over a reset memory that reads 0. -/
theorem bootInstallsTheImage : Obligations.BootInstallsTheImage := by
  intro image
  refine ⟨fun hlen => ⟨_, if_pos hlen, fun i hi => ?_, fun i hi => ?_, rfl⟩,
    fun hlen => if_neg (Nat.not_le_of_gt hlen)⟩
  · rw [State.byteAt, Memory.read_writeBytes, if_pos ⟨Nat.zero_le i, by omega⟩, Nat.sub_zero]
    exact (List.getElem_eq_getD 0).symm
  · rw [State.byteAt, Memory.read_writeBytes, if_neg (by omega)]
    rfl

/-- Settles O47: the bounds aborts share `Config.exitStatusBounds`, a successor. -/
theorem exitStatusFollowsTheTerminalState : Obligations.ExitStatusFollowsTheTerminalState :=
  ⟨rfl, rfl, fun _ => rfl, Config.exitStatusBounds, Nat.succ_ne_zero _, fun _ => rfl, fun _ => rfl⟩
end
